-- ==== Sys2Proof/Word.lean ====
section
/-! DEFINITION. The one machine word of LSBC: a byte (R7 `PIXW` = 8, R10 bit numbering). Lengths, indices and counts
are natural numbers (R13): `8 * (L + 4)` never wraps. -/

namespace Sys2Proof

/-- A byte, an unsigned integer in 0..255 whose bit 7 is the most significant (R10). -/
abbrev Byte := BitVec 8

end Sys2Proof
end

