-- ==== Sys2Proof/Syntax.lean ====
section
/-! DEFINITION. The commands of LSBC, one constructor per row of spec/opcode_table.json (R76). A command has no
operand fields: its operands are registers and buffers (R76, R81). -/

namespace Sys2Proof

/-- The two operations: "It exposes two operations" (R76). -/
inductive Instr where
  /-- HIDE, `CMD` = 0x01 (R110). -/
  | hide
  /-- UNHIDE, `CMD` = 0x02 (R130). -/
  | unhide
  deriving DecidableEq, Repr

end Sys2Proof
end

