-- ==== Sys2Proof/Decode.lean ====
section
/-! DEFINITION. The command word (R76, R77, R78): an 8-bit value compared whole with the two opcodes. Decoding is total:
every other value is rejected by name. The encoder stands after it. -/

namespace Sys2Proof

/-- One row of spec/opcode_table.json: a word `c` is the row's command when `c & mask = pattern`. -/
structure OpcodeRow where
  mask : Byte
  pattern : Byte
  instr : Instr
  deriving DecidableEq, Repr

/-- Why a command word names no command. -/
inductive DecodeError where
  /-- "`CMD` values 0x00 and 0x03 to 0xFF select no command" (R77). -/
  | reservedOpcode (c : Byte)
  deriving DecidableEq, Repr

/-- The opcode table of R76. -/
def opcodeTable : List OpcodeRow :=
  [⟨0xFF, 0x01, .hide⟩, ⟨0xFF, 0x02, .unhide⟩]

/-- Does the word match the row (R76, columns match and mask)? -/
def OpcodeRow.accepts (r : OpcodeRow) (c : Byte) : Bool := c &&& r.mask == r.pattern

/-- "A decoder reads `CMD[7:0]` and compares it with 0x01 and 0x02" (R78). -/
def decode (c : Byte) : Except DecodeError Instr :=
  match opcodeTable.find? (·.accepts c) with
  | some r => .ok r.instr
  | none => .error (.reservedOpcode c)

/-- The value of `CMD` that asks for a command (R76). -/
def encode : Instr → Byte
  | .hide => 0x01
  | .unhide => 0x02

/-- The command read from a word whose `nbits` bits are `w`, numbered as spec/opcode_table.json numbers them. A command
is one 8-bit write (R78): a wider word is not one, and a word of fewer bits has zeros above. DESIGN CHOICE, safe (log entry
17). -/
def decodeTableWord (nbits w : Nat) : Option Instr :=
  if nbits ≤ 8 then
    match decode (BitVec.ofNat 8 (w % 2 ^ nbits)) with
    | .ok i => some i
    | .error _ => none
  else none

end Sys2Proof
end

