-- ==== Sys2Proof/Machine/Kinds.lean ====
section
/-! DEFINITION. The closed sets of names the spec uses: error kinds (R150), phases (R22), the three values of
`STATUS.STATE` (R27), buffer spaces (R32), and the host's moves (R83, R199). -/

namespace Sys2Proof.Machine

/-- The four error kinds, "all non-fatal and locally detected" (R150). -/
inductive ErrKind where
  /-- `STEG_TOO_BIG`, raised by HIDE (R151). -/
  | tooBig
  /-- `STEG_MSG`, raised by HIDE (R152). -/
  | msg
  /-- `STEG_NO_MSG`, raised by UNHIDE (R153). -/
  | noMsg
  /-- `STEG_BAD_MSG`, raised by UNHIDE (R154). -/
  | badMsg
  deriving DecidableEq, Repr

/-- `PHASE`, the state of the engine's state machine (R22, R190). -/
inductive Phase where
  | idle
  | checkCapacity
  | checkMagic
  | streamBits
  | validate
  | done
  deriving DecidableEq, Repr

/-- The values `STATUS.STATE` is ever given (R27); 3 is never produced. -/
inductive RunState where
  | idle
  | busy
  | done
  deriving DecidableEq, Repr

/-- The four buffer spaces the host can name (R32); `ACC` (R36) is not one of them. -/
inductive Space where
  | src
  | dst
  | min
  | mout
  deriving DecidableEq, Repr

/-- One move of the host (R83, R199). `LOADSRC`, `FILLSRC`, `LOADMSG`, `FILLMSG` and `SETMAGIC` are lists of these. -/
inductive HostMove where
  /-- Apply reset (R180). -/
  | reset
  /-- Write `v` to register number `no` (R25); register 0 is `CMD`, the START event (R26). -/
  | writeReg (no v : Nat)
  /-- Read register number `no` (R25). -/
  | readReg (no : Nat)
  /-- Write byte `v` at index `i` of a space (R32). -/
  | writeBuf (sp : Space) (i : Nat) (v : Byte)
  /-- Read the byte at index `i` of a space (R32). -/
  | readBuf (sp : Space) (i : Nat)
  /-- Copy `DST[0..N)` to `SRC[0..N)` (R83 `COPYBACK`, R189). -/
  | copyBack
  /-- Let the engine move until the command has completed (R83, "wait until `STATUS.STATE = DONE`"). -/
  | wait
  deriving DecidableEq, Repr

end Sys2Proof.Machine
end

