-- ==== Sys2Proof/Config.lean ====
section
/-! DEFINITION. What the spec leaves to an implementation: the buffer capacities (R7, D21) and the text that
follows an error token (R80, D7). -/

namespace Sys2Proof

/-- The capacities of the buffers, the model arguments `NMAX` and `LMAX` of R7 (D21). `none` is an unbounded buffer,
which D21 allows a model to take. -/
structure Config.Capacities where
  /-- `NMAX`: bytes of `SRC` and of `DST`. -/
  nmax : Option Nat
  /-- `LMAX`: bytes of `MIN`. -/
  lmax : Option Nat
  deriving DecidableEq, Repr

/-- `ERR_DESCRIPTION[kind]` (D7, U9): the text after the error token, a free value of which nothing is known (log
entry 7). -/
opaque Config.errDescription : Machine.ErrKind → List Byte

end Sys2Proof
end

