-- ==== Sys2Proof/Machine/State.lean ====
section
/-! DEFINITION. The state of LSBC: every piece R21 lists, and the model's own three fields (capacities, the host's
coming moves, the value the host last read). Faults, refusals and the state after reset (R38, R180). -/

namespace Sys2Proof.Machine

/-- A buffer: the bytes that hold a value, at strictly rising addresses. An unlisted address holds no value (R39), so no
entry can equal what an unlisted address reads as. -/
abbrev Memory := List Host.Cell

/-- The canonical form of a buffer: addresses strictly rise. -/
def Memory.wf (m : Memory) : Bool := decide (m.Pairwise fun c d => c.1 < d.1)

/-- The Magic Token, registers 5, 6 and 7 (R31); its length is always 3. -/
structure Magic where
  b0 : Byte
  b1 : Byte
  b2 : Byte
  deriving DecidableEq, Repr

/-- Faults of the model. The spec has none ("not a trap and not a fault of the model", R9). -/
inductive Fault where
  /-- Raised by `engineStep` in a state for which no rule of R192 to R196 says what the engine does: `PHASE` is
  `STREAM_BITS` with `STATUS.OP` neither HIDE nor UNHIDE, `CHECK_MAGIC` or frame indices outside the token and the frame,
  or an `ACC` byte below `ACC_LEN` without value. No run from reset reaches one. DESIGN CHOICE, safe: the model stops (log
  entry 6). -/
  | engineOutOfSequence
  deriving DecidableEq, Repr

/-- Requests the spec gives no transition (R9, R168). Every one is safe: the model says nothing about such a run. -/
inductive Refusal where
  /-- Raised by `exec` for a command that has no meaning yet; no arm raises it. Safe. -/
  | notModelled (mnemonic : String)
  /-- `CMD` written with 0x00 or 0x03 to 0xFF (R77, R168); raised by the host's write of `CMD`, and by `step` on such a
  pending word. Safe. -/
  | reservedOpcode (c : Byte)
  /-- A command asked for while `STATUS.STATE` is neither `IDLE` nor `DONE` (R168, R169, R184). Safe. -/
  | commandWhileBusy
  /-- Any host access but a read of `STATUS` while `STATUS.STATE` is neither `IDLE` nor `DONE` (R40, R168). Safe. -/
  | hostAccessWhileBusy
  /-- A command started with `N > NMAX` (R28, R168). Safe. -/
  | lengthAboveCapacity
  /-- HIDE started with `MSG_LEN > LMAX` (R29, R168). Safe. -/
  | messageAboveCapacity
  /-- A command or a host read needs a byte of this space that nothing has written (R39, R168). Safe. -/
  | unwrittenByte (sp : Space)
  /-- An access to a register number above 7 (R25, R168). Safe. -/
  | noSuchRegister (no : Nat)
  /-- A host write of a value wider than the 8-bit register it names (R12: no truncation ever occurs; log
  entry 8). Safe. -/
  | valueTooWide (no : Nat)
  /-- A host write to `DST` or `MOUT`, which R32 gives the host to read only (log entry 8). Safe. -/
  | spaceReadOnly (sp : Space)
  /-- A host access at or above the capacity of the space (R32; log entry 8). Safe. -/
  | indexAboveCapacity (sp : Space)
  deriving DecidableEq, Repr

/-- The state of LSBC (R21). Plain data. -/
structure State where
  /-- `CMD`, register 0 (R26): the word the host wrote and the engine has not yet taken, 0 when there is none (R38). -/
  cmd : Byte
  /-- `STATUS`, register 1 (R27). -/
  status : Byte
  /-- `N`, register 2 (R28). -/
  n : Nat
  /-- `MSG_LEN`, register 3 (R29). -/
  msgLen : Nat
  /-- `OUT_LEN`, register 4 (R30). -/
  outLen : Nat
  /-- `MAGIC[0..2]`, registers 5 to 7 (R31). -/
  magic : Magic
  /-- `PHASE` (R22). -/
  phase : Phase
  /-- `IDX` (R22, R23). -/
  idx : Nat
  /-- `SHIFT` (R23). -/
  shift : Byte
  /-- `FLEN` (R23). -/
  flen : Nat
  /-- `ACC_LEN` (R23, R36). -/
  accLen : Nat
  /-- `FOUND_NUL` (R24). -/
  foundNul : Bool
  /-- `MATCH` (R24). -/
  matched : Bool
  /-- `SRC` (R33). -/
  src : Memory
  /-- `DST` (R34). -/
  dst : Memory
  /-- `MIN` (R35). -/
  min : Memory
  /-- `MOUT` (R35). -/
  mout : Memory
  /-- `ACC` (R36). -/
  acc : Memory
  /-- The model's own: `NMAX` and `LMAX` (R7), parameters that no step changes (log entry 1). -/
  caps : Config.Capacities
  /-- The model's own: the host's coming moves, the next one first (log entry 2). -/
  inbox : List HostMove
  /-- The model's own: the value the host's last read returned (log entry 2). -/
  hostRead : Option Nat
  deriving DecidableEq, Repr

/-- The machine right after reset (R38, R180), with unbounded capacities (log entry 1) and a host that has no move to
make (log entry 2). -/
def State.reset : State where
  cmd := 0
  status := 0x00
  n := 0
  msgLen := 0
  outLen := 0
  magic := ⟨0x73, 0x74, 0x67⟩
  phase := .idle
  idx := 0
  shift := 0
  flen := 0
  accLen := 0
  foundNul := false
  matched := false
  src := []
  dst := []
  min := []
  mout := []
  acc := []
  caps := ⟨none, none⟩
  inbox := []
  hostRead := none

/-- What a move of the machine answers. -/
abbrev Result := Host.Outcome State Fault Refusal

end Sys2Proof.Machine
end

