-- ==== Sys2Proof/Machine/Ops.lean ====
section
/-! DEFINITION. The named operations over buffers and registers: `MemRead` and `MemWrite` (R12), the parts of `STATUS`
(R27), and the end of a command, with or without an error (R156, the counterpart of taking an exception). -/

namespace Sys2Proof.Machine

/-! ## Buffers -/

/-- `MemRead(SP, i, 1)` (R12): the byte at index `i`, or none where nothing has been written (R39; DEDUCED,
log entry 9). -/
def Memory.read : Memory → Nat → Option Byte
  | [], _ => none
  | (a, v) :: m, i => if a = i then some v else Memory.read m i

/-- `MemWrite(SP, i, 1, v)` (R12): the byte enters at its place in the rising order of addresses. -/
def Memory.write : Memory → Nat → Byte → Memory
  | [], i, v => [(i, v)]
  | (a, w) :: m, i, v =>
    if i < a then (i, v) :: (a, w) :: m
    else if a = i then (i, v) :: m
    else (a, w) :: Memory.write m i v

/-- The `len` bytes from index `i` on, or none where one of them has no value: `[MemRead(SP, j, 1) for j in i ..]`. -/
def Memory.readBytes (m : Memory) (i : Nat) : Nat → Option (List Byte)
  | 0 => some []
  | len + 1 =>
    match m.read i, m.readBytes (i + 1) len with
    | some v, some vs => some (v :: vs)
    | _, _ => none

/-- The bytes written in index order from index `i` on: `for j: MemWrite(SP, i + j, 1, vs[j])`. -/
def Memory.writeBytes (m : Memory) (i : Nat) : List Byte → Memory
  | [] => m
  | v :: vs => (m.write i v).writeBytes (i + 1) vs

/-- The buffer a space names (R32). -/
def State.buffer (s : State) : Space → Memory
  | .src => s.src
  | .dst => s.dst
  | .min => s.min
  | .mout => s.mout

/-! ## Capacities -/

/-- Does a buffer of this capacity hold `len` bytes? An unbounded one always does (R7, D21). -/
def capAllows : Option Nat → Nat → Bool
  | none, _ => true
  | some c, len => len ≤ c

/-- `OMAX = floor(NMAX / 8)` (R7). -/
def omax (caps : Config.Capacities) : Option Nat := caps.nmax.map (· / 8)

/-- The capacity of a space (R32). -/
def capacity (caps : Config.Capacities) : Space → Option Nat
  | .src => caps.nmax
  | .dst => caps.nmax
  | .min => caps.lmax
  | .mout => omax caps

/-! ## `STATUS` -/

/-- The code of `STATUS.STATE` (R27). -/
def runStateCode : RunState → Nat
  | .idle => 0
  | .busy => 1
  | .done => 2

/-- The code of `STATUS.ERR` (R27, R79): 0 is OK. -/
def errCode : Option ErrKind → Nat
  | none => 0
  | some .tooBig => 1
  | some .msg => 2
  | some .noMsg => 3
  | some .badMsg => 4

/-- The code of `STATUS.OP` (R27): the opcode of the command. -/
def opCode : Instr → Nat
  | .hide => 1
  | .unhide => 2

/-- "As a byte, `STATUS = STATE + 4 * ERR + 32 * OP`" (R27), for a command `i`. -/
def statusByte (st : RunState) (e : Option ErrKind) (i : Instr) : Byte :=
  BitVec.ofNat 8 (runStateCode st + 4 * errCode e + 32 * opCode i)

/-- `STATUS.STATE`, bits 1:0 (R27). -/
def statusState (b : Byte) : BitVec 2 := b.extractLsb' 0 2

/-- `STATUS.ERR`, bits 4:2 (R27). -/
def statusErr (b : Byte) : BitVec 3 := b.extractLsb' 2 3

/-- `STATUS.OP`, bits 6:5 (R27). -/
def statusOp (b : Byte) : BitVec 2 := b.extractLsb' 5 2

/-- `STATUS.STATE` is `IDLE` or `DONE`: the host may act and a command may start (R40, R169). -/
def State.resting (s : State) : Bool := statusState s.status == 0 || statusState s.status == 2

/-! ## The end of a command -/

/-- The command `i` completes with result `e`: `x[STATUS] <- {STATE = DONE, ERR = code(e), OP = i}` and
`x[PHASE] <- DONE` (R12, R27, R156). Nothing else changes. -/
def State.finish (s : State) (i : Instr) (e : Option ErrKind) : State :=
  { s with status := statusByte .done e i, phase := .done }

/-- `raise <Kind>` (R12, R156): "It saves nothing, changes no mode, masks nothing, uses no stack and transfers control
nowhere". -/
def State.raise (s : State) (i : Instr) (e : ErrKind) : State := s.finish i (some e)

/-- The reset input (R180, R181): every register at its reset value and every buffer without value, whatever the engine
was doing. The parameters and the host's own fields are no state of the block and stay (DESIGN CHOICE, log entries 1, 2
and 15). -/
def State.applyReset (s : State) : State :=
  { State.reset with caps := s.caps, inbox := s.inbox, hostRead := s.hostRead }

end Sys2Proof.Machine
end

