-- ==== Sys2Proof/Machine/Framing.lean ====
section
/-! DEFINITION. The shared framing rules of 40_framing.md (R90 to R99). Each is a pure total function. Where the spec
says `framebit` or `unpack_byte` is not defined, it answers `none`; what `embed` and `magicPresent` answer outside the
spec's inputs is a DESIGN CHOICE (log entry 16). A byte sequence is given by its reader, so that the same function
serves a list and a buffer some of whose bytes have no value. -/

namespace Sys2Proof.Machine

/-- A byte sequence by index: none where it has no byte or the byte has no value. -/
abbrev Reader := Nat → Option Byte

/-- The reader of a list of bytes. -/
def listReader (bs : List Byte) : Reader := fun i => bs[i]?

/-- The terminator `TERM`, a constant (R7). -/
def term : Byte := 0x00

/-- The three bytes of the token in order (R31). -/
def Magic.bytes (m : Magic) : List Byte := [m.b0, m.b1, m.b2]

/-- `frame(MAGIC, M)` (R90): "Build Framed Message = Magic Token + message + NUL." -/
def frame (magic : Magic) (msg : List Byte) : List Byte := magic.bytes ++ msg ++ [term]

/-- `framebit(F, i)` (R91): bit number `7 - (i mod 8)` of byte `i div 8`; not defined from `8 * |F|` on. -/
def framebit (f : List Byte) (i : Nat) : Option Bool :=
  (f[i / 8]?).map fun b => b.getLsbD (7 - i % 8)

/-- `lsb_write(p, b)` (R92). -/
def lsbWrite (p : Byte) : Bool → Byte
  | true => p ||| 0x01
  | false => p &&& 0xFE

/-- `lsb_read(p)` (R93): `p & 1`. -/
def lsbRead (p : Byte) : Bool := p &&& 0x01 == 0x01

/-- One shift of the assembled byte (R94, R193): `v <- (v << 1) | lsb_read(p)`, in 8 bits. -/
def shiftIn (v p : Byte) : Byte := (v <<< 1) ||| (if lsbRead p then 0x01 else 0x00)

/-- `len` shifts, from pixel index `i` on. -/
def shiftGroup (rd : Reader) (i : Nat) : Nat → Byte → Option Byte
  | 0, v => some v
  | len + 1, v =>
    match rd i with
    | some p => shiftGroup rd (i + 1) len (shiftIn v p)
    | none => none

/-- `unpack_byte(S, k)` (R94), as the shift register does it; none when the group is not wholly there. -/
def unpackByte (rd : Reader) (k : Nat) : Option Byte := shiftGroup rd (8 * k) 8 0x00

/-- What `embed` makes of pixel byte `p` at index `i` (R95): the LSB is replaced where `framebit` is defined, that is
below `8 * |F|`, and the byte is copied from there on. -/
def embedByte (f : List Byte) (i : Nat) (p : Byte) : Byte :=
  match framebit f i with
  | some b => lsbWrite p b
  | none => p

/-- `embed(S, F)` from pixel index `i` on. -/
def embedFrom (f : List Byte) (i : Nat) : List Byte → List Byte
  | [] => []
  | p :: ps => embedByte f i p :: embedFrom f (i + 1) ps

/-- `embed(S, F)` (R95). The spec does not define it when `8 * |F| > N`; there the model answers the `N` bytes with the
first `N` bits of the frame. DESIGN CHOICE, safe: no command reaches it, the capacity check comes first (log entry 16). -/
def embed (s f : List Byte) : List Byte := embedFrom f 0 s

/-- `capacity_ok(L, N)` (R96): the bit-accurate rule, in exact arithmetic. -/
def capacityOk (l n : Nat) : Bool := 8 * (l + 4) ≤ n

/-- `magic_present(S, N, MAGIC)` (R97). On a reader in which one of the first 24 bytes has no value, which is no input of
R97, the model answers false. DESIGN CHOICE, safe: HIDE asks only when all of `SRC[0..N)` has values (log entry 16). -/
def magicPresent (rd : Reader) (n : Nat) (magic : Magic) : Bool :=
  24 ≤ n && unpackByte rd 0 == some magic.b0 && unpackByte rd 1 == some magic.b1 && unpackByte rd 2 == some magic.b2

/-- What `scan` finds: the payload bytes before the terminator, and whether there was one (R98). With `foundNul` the
bytes are `P[0..K)`; without it the buffer is exhausted and they are all the whole groups' bytes. -/
structure Scan where
  bytes : List Byte
  foundNul : Bool
  deriving DecidableEq, Repr

/-- The scan over `g` groups from group `k` on; none where a byte it reaches has no value. -/
def scanGroups (rd : Reader) : Nat → Nat → Option Scan
  | 0, _ => some ⟨[], false⟩
  | g + 1, k =>
    match unpackByte rd k with
    | none => none
    | some v =>
      if v = term then some ⟨[], true⟩
      else (scanGroups rd g (k + 1)).map fun r => ⟨v :: r.bytes, r.foundNul⟩

/-- `scan(S, N)` (R98), over the `N div 8` whole groups (R53). -/
def scan (rd : Reader) (n : Nat) : Option Scan := scanGroups rd (n / 8) 0

/-- `validate(P, K, MAGIC)` with `K = |P|` (R99). -/
def validate (p : List Byte) (magic : Magic) : Bool :=
  3 ≤ p.length && p[0]? == some magic.b0 && p[1]? == some magic.b1 && p[2]? == some magic.b2

end Sys2Proof.Machine
end

