-- ==== Sys2Proof/Machine/Operands.lean ====
section
/-! DEFINITION. How each operand reaches a command (R81), and the checks on the operand registers that admission makes
(R169). The Magic Token, `N` and `MSG_LEN` are registers read whole; nothing is extended, scaled or shifted. -/

namespace Sys2Proof.Machine

/-- The message `M = MIN[0..MSG_LEN)` (R81, R111); none where a byte has no value. -/
def State.message (s : State) : Option (List Byte) := s.min.readBytes 0 s.msgLen

/-- The pixel buffer `SRC[0..N)` (R81); none where a byte has no value. -/
def State.pixels (s : State) : Option (List Byte) := s.src.readBytes 0 s.n

/-- `SRC` byte by byte (R81), for the command that stops at the terminator. -/
def State.pixelReader (s : State) : Reader := fun i => s.src.read i

/-- `MAGIC[k]` for `k < 3` (R31). -/
def Magic.byteAt (m : Magic) (k : Nat) : Option Byte := m.bytes[k]?

/-- Byte `k` of the frame produced on demand, `fbyte(k)` of R194: a token byte, a message byte, or the terminator. -/
inductive FrameByte where
  /-- The byte. -/
  | byte (v : Byte)
  /-- A message byte nothing has written (R39). -/
  | unwritten
  /-- `k` is at or above `FLEN`: no rule asks for it. -/
  | outside
  deriving DecidableEq, Repr

/-- `fbyte(k)` (R194). -/
def State.frameByte (s : State) (k : Nat) : FrameByte :=
  if k < 3 then
    match s.magic.byteAt k with
    | some v => .byte v
    | none => .outside
  else if k + 1 < s.flen then
    match s.min.read (k - 3) with
    | some v => .byte v
    | none => .unwritten
  else if k + 1 = s.flen then .byte term
  else .outside

/-- The admission checks on `STATUS` and the length registers (R169): the command may start now and its operands lie
inside the buffers. Only HIDE reads `MSG_LEN` (R29). -/
def State.startRefusal (s : State) (i : Instr) : Option Refusal :=
  if !s.resting then some .commandWhileBusy
  else if !capAllows s.caps.nmax s.n then some .lengthAboveCapacity
  else
    match i with
    | .hide => if capAllows s.caps.lmax s.msgLen then none else some .messageAboveCapacity
    | .unhide => none

end Sys2Proof.Machine
end

