-- ==== Sys2Proof/Machine/Hide.lean ====
section
/-! DEFINITION. HIDE, the message-to-bitstream encoder (41_hide.md), at the architectural level: one atomic transition
(R8, R110). -/

namespace Sys2Proof.Machine

/-- HIDE (R110): admission, step 1 framing (R112), step 2 capacity (R113), step 3 already-hidden (R114), step 4 embed
and copy (R115). On an error nothing but `STATUS` and `PHASE` is written (R117).
DEDUCED: working registers the pseudocode does not name stay (log entry 4). -/
def execHide (s : State) : Result :=
  match s.startRefusal .hide with
  | some r => .refused r
  | none =>
    match s.message with
    | none => .refused (.unwrittenByte .min)
    | some msg =>
      if !capacityOk s.msgLen s.n then .next (s.raise .hide .tooBig)
      else
        match s.pixels with
        | none => .refused (.unwrittenByte .src)
        | some px =>
          if magicPresent (listReader px) s.n s.magic then .next (s.raise .hide .msg)
          else
            let d := embed px (frame s.magic msg)
            .next ({ s with dst := s.dst.writeBytes 0 d }.finish .hide none)

end Sys2Proof.Machine
end

