-- ==== Sys2Proof/Machine/Unhide.lean ====
section
/-! DEFINITION. UNHIDE, the bitstream-to-message decoder (42_unhide.md), at the architectural level: one atomic
transition (R8, R130). -/

namespace Sys2Proof.Machine

/-- What the loop of R130 leaves in the working state: the decoded bytes in `ACC`, their number in `ACC_LEN`, and
`FOUND_NUL` (R132, R136). -/
def State.decoded (s : State) (r : Scan) : State :=
  { s with acc := s.acc.writeBytes 0 r.bytes, accLen := r.bytes.length, foundNul := r.foundNul }

/-- An error of UNHIDE: `x[OUT_LEN] <- 0; raise <Kind>` (R130, R137). DEDUCED: `MOUT` stays (D12; log entry 13). -/
def State.unhideError (s : State) (e : ErrKind) : State := { s with outLen := 0 }.raise .unhide e

/-- UNHIDE (R130): admission, step 1 streaming (R132), step 2 exhaustion (R133), step 3 validation (R134), step 4 the
result (R135). DEDUCED: working registers the pseudocode does not name stay (log entry 4). -/
def execUnhide (s : State) : Result :=
  match s.startRefusal .unhide with
  | some r => .refused r
  | none =>
    match scan s.pixelReader s.n with
    | none => .refused (.unwrittenByte .src)
    | some r =>
      let t := s.decoded r
      if !r.foundNul then .next (t.unhideError .badMsg)
      else if !validate r.bytes s.magic then .next (t.unhideError .noMsg)
      else
        .next ({ t with mout := t.mout.writeBytes 0 (r.bytes.drop 3), outLen := r.bytes.length - 3 }.finish .unhide none)

end Sys2Proof.Machine
end

