-- ==== Sys2Proof/Machine/Dispatch.lean ====
section
/-! DEFINITION. One arm per command: the architectural meaning of each (R8). -/

namespace Sys2Proof.Machine

def exec (i : Instr) (s : State) : Host.Outcome State Fault Refusal :=
  match i with
  | .hide => Sys2Proof.Machine.execHide s
  | .unhide => Sys2Proof.Machine.execUnhide s

end Sys2Proof.Machine
end

