-- ==== Sys2Proof/Machine/Flags.lean ====
section
/-! DEFINITION. The two one-bit flags of LSBC (R24), `FOUND_NUL` and `MATCH`, both working state. There are no carry,
zero, sign or overflow flags. -/

namespace Sys2Proof.Machine

/-- `FOUND_NUL` after payload byte `v` has been decoded: "set to 1 when a payload byte equal to 0x00 is decoded" (R24). -/
def foundNulAfter (old : Bool) (v : Byte) : Bool := old || v == term

/-- `MATCH` after payload byte `v` was compared with token byte `b`: "cleared to 0 by the first payload byte that
differs from the corresponding `MAGIC` byte" (R24). -/
def matchAfter (old : Bool) (v b : Byte) : Bool := old && v == b

end Sys2Proof.Machine
end

