-- ==== Sys2Proof/Machine/Engine.lean ====
section
/-! DEFINITION. The step-level machine of 70_reset_and_hazards.md (R190 to R196): START and one definition per step of
the engine. It refines the architectural level (R8). -/

namespace Sys2Proof.Machine

/-- The registers after START (R191). -/
def State.started (s : State) (i : Instr) : State :=
  { s with
    status := statusByte .busy none i
    idx := 0
    shift := 0x00
    matched := true
    foundNul := false
    accLen := 0
    phase := match i with
      | .hide => .checkCapacity
      | .unhide => .streamBits }

/-- START (R191): taken when the command is admitted (R169), that is when the architectural level gives it a transition
(R9: a refused request has none). -/
def startCommand (i : Instr) (s : State) : Result :=
  match exec i s with
  | .next _ => .next (s.started i)
  | .fault f => .fault f
  | .refused r => .refused r

/-- `CHECK_CAPACITY` (R192): one step, reads no buffer. -/
def checkCapacityStep (s : State) : Result :=
  let t := { s with flen := s.msgLen + 4 }
  if 8 * t.flen > s.n then .next (t.raise .hide .tooBig)
  else .next { t with phase := .checkMagic }

/-- `CHECK_MAGIC` after pixel byte `p` was shifted in and, at the end of a group, the payload byte compared with token
byte `b` (R193). -/
def State.probed (s : State) (p b : Byte) : State :=
  { s with
    shift := shiftIn s.shift p
    matched := if s.idx % 8 = 7 then matchAfter s.matched (shiftIn s.shift p) b else s.matched
    idx := s.idx + 1 }

/-- One `CHECK_MAGIC` step (R193). -/
def checkMagicStep (s : State) : Result :=
  match s.src.read s.idx with
  | none => .refused (.unwrittenByte .src)
  | some p =>
    match s.magic.byteAt (s.idx / 8) with
    | none => .fault .engineOutOfSequence
    | some b =>
      if (s.probed p b).idx = 24 then
        if (s.probed p b).matched then .next ((s.probed p b).raise .hide .msg)
        else .next { s.probed p b with phase := .streamBits, idx := 0 }
      else .next (s.probed p b)

/-- The byte HIDE writes at index `IDX` (R194): the pixel byte with its frame bit below `8 * FLEN`, else itself. -/
def State.hideOutput (s : State) (p : Byte) : FrameByte :=
  if s.idx < 8 * s.flen then
    match s.frameByte (s.idx / 8) with
    | .byte f => .byte (lsbWrite p (f.getLsbD (7 - s.idx % 8)))
    | .unwritten => .unwritten
    | .outside => .outside
  else .byte p

/-- One `STREAM_BITS` step of HIDE (R194). -/
def hideStreamStep (s : State) : Result :=
  match s.src.read s.idx with
  | none => .refused (.unwrittenByte .src)
  | some p =>
    match s.hideOutput p with
    | .unwritten => .refused (.unwrittenByte .min)
    | .outside => .fault .engineOutOfSequence
    | .byte d =>
      let t := { s with dst := s.dst.write s.idx d, idx := s.idx + 1 }
      if t.idx = s.n then .next (t.finish .hide none) else .next t

/-- UNHIDE has assembled payload byte `v` (R195): the terminator ends the streaming, any other byte is compared with the
token while fewer than three are in, and goes into `ACC`. -/
def State.payload (s : State) (v : Byte) : State :=
  if v = term then { s with foundNul := foundNulAfter s.foundNul v, phase := .validate }
  else
    { s with
      matched := match s.magic.byteAt s.accLen with
        | some b => matchAfter s.matched v b
        | none => s.matched
      acc := s.acc.write s.accLen v
      accLen := s.accLen + 1 }

/-- UNHIDE's `STREAM_BITS` after pixel byte `p` was shifted in (R195). -/
def State.shifted (s : State) (p : Byte) : State :=
  let t := { s with shift := shiftIn s.shift p }
  { (if s.idx % 8 = 7 then t.payload t.shift else t) with idx := s.idx + 1 }

/-- One `STREAM_BITS` step of UNHIDE (R195). The exhaustion test comes first and only at a group boundary. -/
def unhideStreamStep (s : State) : Result :=
  if s.idx % 8 = 0 ∧ s.n - s.idx < 8 then .next (s.unhideError .badMsg)
  else
    match s.src.read s.idx with
    | none => .refused (.unwrittenByte .src)
    | some p => .next (s.shifted p)

/-- The `VALIDATE` step of UNHIDE (R196). -/
def validateStep (s : State) : Result :=
  if s.accLen < 3 ∨ s.matched = false then .next (s.unhideError .noMsg)
  else
    match s.acc.readBytes 3 (s.accLen - 3) with
    | none => .fault .engineOutOfSequence
    | some out =>
      .next ({ s with mout := s.mout.writeBytes 0 out, outLen := s.accLen - 3 }.finish .unhide none)

/-- One step of the engine (R190): in `IDLE` and `DONE` it does nothing and waits (R40, R166). `STREAM_BITS` belongs to
the command in `STATUS.OP`. -/
def engineStep (s : State) : Result :=
  match s.phase with
  | .idle => .next s
  | .checkCapacity => checkCapacityStep s
  | .checkMagic => checkMagicStep s
  | .streamBits =>
    if statusOp s.status = 1 then hideStreamStep s
    else if statusOp s.status = 2 then unhideStreamStep s
    else .fault .engineOutOfSequence
  | .validate => validateStep s
  | .done => .next s

/-- `k` steps of the engine with no host move between. -/
def runEngine : Nat → State → Result
  | 0, s => .next s
  | k + 1, s =>
    match engineStep s with
    | .next t => runEngine k t
    | .fault f => .fault f
    | .refused r => .refused r

end Sys2Proof.Machine
end

