-- ==== Sys2Proof/Machine/HostPort.lean ====
section
/-! DEFINITION. The host's side: the register map (R25), the buffers as the host sees them (R32), who may touch what and
when (R40, R168), the reset input (R180, R181), and the turn-taking of host and engine (R20, R61). -/

namespace Sys2Proof.Machine

/-- What a host read of a register returns (R25): `CMD` reads 0; numbers above 7 do not exist. -/
def State.regRead (s : State) : Nat → Option Nat
  | 0 => some 0
  | 1 => some s.status.toNat
  | 2 => some s.n
  | 3 => some s.msgLen
  | 4 => some s.outLen
  | 5 => some s.magic.b0.toNat
  | 6 => some s.magic.b1.toNat
  | 7 => some s.magic.b2.toNat
  | _ => none

/-- A host read of a register (R25, R40): in `BUSY` only `STATUS` may be read (DEDUCED, log entry 10). Reading
has no side effect (R56). -/
def hostReadReg (no : Nat) (s : State) : Result :=
  if !s.resting && no != 1 then .refused .hostAccessWhileBusy
  else
    match s.regRead no with
    | some v => .next { s with hostRead := some v }
    | none => .refused (.noSuchRegister no)

/-- A host write of `CMD` (R26, R169): the word is taken if it is a command and the command is admitted, and is then
pending until the engine's next move; otherwise the write is refused, as is a value of 256 or more (DESIGN CHOICE,
safe: log entries 8 and 17). -/
def hostWriteCmd (v : Nat) (s : State) : Result :=
  if v < 256 then
    match decode (BitVec.ofNat 8 v) with
    | .error (.reservedOpcode c) => .refused (.reservedOpcode c)
    | .ok i =>
      match exec i s with
      | .next _ => .next { s with cmd := BitVec.ofNat 8 v }
      | .fault f => .fault f
      | .refused r => .refused r
  else .refused (.valueTooWide 0)

/-- A host write of one of the token registers, numbers 5 to 7 (R25, R31). -/
def State.setMagic (s : State) (no : Nat) (b : Byte) : Option State :=
  match no with
  | 5 => some { s with magic := { s.magic with b0 := b } }
  | 6 => some { s with magic := { s.magic with b1 := b } }
  | 7 => some { s with magic := { s.magic with b2 := b } }
  | _ => none

/-- A host write of a register above 4 (R25): the token registers hold 8 bits, and numbers above 7 do not exist. -/
def hostWriteMagic (no v : Nat) (s : State) : Result :=
  match s.setMagic no (BitVec.ofNat 8 v) with
  | none => .refused (.noSuchRegister no)
  | some t => if v < 256 then .next t else .refused (.valueTooWide no)

/-- A host write of a register (R25): writes of `STATUS` and `OUT_LEN` are ignored, and in `BUSY` the host may write
nothing (R40). -/
def hostWriteReg (no v : Nat) (s : State) : Result :=
  if !s.resting then .refused (if no = 0 then .commandWhileBusy else .hostAccessWhileBusy)
  else
    match no with
    | 0 => hostWriteCmd v s
    | 1 => .next s
    | 2 => .next { s with n := v }
    | 3 => .next { s with msgLen := v }
    | 4 => .next s
    | _ => hostWriteMagic no v s

/-- A host write of a buffer byte (R32): `SRC` and `MIN`, below the capacity. The refusal of a write to `DST` or `MOUT` and
of an index at or above the capacity is a DESIGN CHOICE (log entry 8). -/
def hostWriteBuf (sp : Space) (i : Nat) (v : Byte) (s : State) : Result :=
  if !s.resting then .refused .hostAccessWhileBusy
  else if !capAllows (capacity s.caps sp) (i + 1) then .refused (.indexAboveCapacity sp)
  else
    match sp with
    | .src => .next { s with src := s.src.write i v }
    | .min => .next { s with min := s.min.write i v }
    | .dst => .refused (.spaceReadOnly .dst)
    | .mout => .refused (.spaceReadOnly .mout)

/-- A host read of a buffer byte (R32): a byte nothing has written has no value (R39). -/
def hostReadBuf (sp : Space) (i : Nat) (s : State) : Result :=
  if !s.resting then .refused .hostAccessWhileBusy
  else if !capAllows (capacity s.caps sp) (i + 1) then .refused (.indexAboveCapacity sp)
  else
    match (s.buffer sp).read i with
    | some v => .next { s with hostRead := some v.toNat }
    | none => .refused (.unwrittenByte sp)

/-- `COPYBACK` (R83, R189): the host reads `DST[0..N)` and writes it to `SRC[0..N)`, leaving `N` unchanged.
DESIGN CHOICE: one move for all the bytes (log entry 14). -/
def hostCopyBack (s : State) : Result :=
  if !s.resting then .refused .hostAccessWhileBusy
  else if !capAllows s.caps.nmax s.n then .refused (.indexAboveCapacity .dst)
  else
    match s.dst.readBytes 0 s.n with
    | some bs => .next { s with src := s.src.writeBytes 0 bs }
    | none => .refused (.unwrittenByte .dst)

/-- One move of the host (R83, R199). -/
def hostMove (m : HostMove) (s : State) : Result :=
  match m with
  | .reset => .next s.applyReset
  | .writeReg no v => hostWriteReg no v s
  | .readReg no => hostReadReg no s
  | .writeBuf sp i v => hostWriteBuf sp i v s
  | .readBuf sp i => hostReadBuf sp i s
  | .copyBack => hostCopyBack s
  | .wait => .next s

/-- The engine takes the pending command word (R25: "reads the written value once, at START"), which leaves `CMD` at 0
(R26: it "holds no state of its own after the command is accepted"). -/
def takeCommand (accept : Instr → State → Result) (s : State) : Result :=
  match decode s.cmd with
  | .error (.reservedOpcode c) => .refused (.reservedOpcode c)
  | .ok i => accept i { s with cmd := 0 }

/-- The host's turn: its next move, if it has one; while it waits for `DONE`, or has no move to make, the engine
moves (log entries 2 and 14). -/
def hostTurn (s : State) : Result :=
  match s.inbox with
  | [] => engineStep s
  | m :: rest =>
    if m = .wait ∧ statusState s.status ≠ 2 then engineStep s
    else hostMove m { s with inbox := rest }

/-- One move of the whole machine, `accept` being what a taken command does. A pending command goes before any host
move, so its operands are those in place when `CMD` was written (R63; DESIGN CHOICE, log entry 5). -/
def advance (accept : Instr → State → Result) (s : State) : Result :=
  if s.cmd = 0 then hostTurn s else takeCommand accept s

/-- The step-level machine (R8, R190): a taken command makes the START step of R191 and the engine goes on byte by
byte (log entry 11). -/
def fineStep (s : State) : Result := advance startCommand s

end Sys2Proof.Machine
end

