-- ==== Sys2Proof/Machine/Step.lean ====
section
/-! DEFINITION. One step of LSBC at the normative, architectural level (R8): a taken command is one atomic transition. -/

namespace Sys2Proof.Machine

/-- A pending command runs (`exec`); otherwise the host makes its next move; otherwise the engine goes on with what it
was doing, which in `IDLE` and `DONE` is to wait (R20, R61, R166; log entry 11). -/
def step (s : State) : Host.Outcome State Fault Refusal := advance exec s

/-- The state in which the host has written the command word `w` to `CMD` (R26) and `step` takes it next. LSBC fetches no
instructions (R22): this stands for the host's write (log entry 5). A command word has 8
bits (R78): of a wider one `CMD` gets the low 8, and one of fewer bits gets zeros above. DESIGN CHOICE, unsafe for a claim
about a wider word, which `decodeTableWord` rejects and `hostWriteCmd` refuses (log entry 17). -/
def State.withFetchWord (s : State) (nbits w : Nat) : State :=
  { s with cmd := BitVec.ofNat 8 (w % 2 ^ nbits) }

end Sys2Proof.Machine
end

