-- ==== Sys2Proof/Machine/Wrapper.lean ====
section
/-! DEFINITION. What the host makes of a result (R80, R82, R167, R184), and the host-script lines of R83 and R84 as lists
of moves. None of it is state of the block. -/

namespace Sys2Proof.Machine

/-- The error token as ASCII bytes (R80; PRESUMED, the spec's G3: log entry 12). -/
def errToken : ErrKind → List Byte
  | .tooBig => [0x53, 0x54, 0x45, 0x47, 0x5F, 0x54, 0x4F, 0x4F, 0x5F, 0x42, 0x49, 0x47]
  | .msg => [0x53, 0x54, 0x45, 0x47, 0x5F, 0x4D, 0x53, 0x47]
  | .noMsg => [0x53, 0x54, 0x45, 0x47, 0x5F, 0x4E, 0x4F, 0x5F, 0x4D, 0x53, 0x47]
  | .badMsg => [0x53, 0x54, 0x45, 0x47, 0x5F, 0x42, 0x41, 0x44, 0x5F, 0x4D, 0x53, 0x47]

/-- The error text: the token first, then a description nothing is known of (R80, R167, U9). -/
def errText (e : ErrKind) : List Byte := errToken e ++ Config.errDescription e

/-- The kind `STATUS.ERR` names (R79); 0 and 5 to 7 name none. -/
def errOfStatus (b : Byte) : Option ErrKind :=
  match (statusErr b).toNat with
  | 1 => some .tooBig
  | 2 => some .msg
  | 3 => some .noMsg
  | 4 => some .badMsg
  | _ => none

/-- The tagged result of an operation (R82): exactly one of an image, a message, an error text. -/
inductive Tagged where
  | image (pixels : List Byte)
  | message (bytes : List Byte)
  | error (text : List Byte)
  deriving DecidableEq, Repr

/-- What the host collects at `DONE` (R184, R199): `ERR` first, then `DST[0..N)` after HIDE or `MOUT[0..OUT_LEN)` after
UNHIDE, only if `ERR = 0`. -/
def collect (s : State) : Option Tagged :=
  if statusState s.status = 2 then
    match errOfStatus s.status with
    | some e => some (.error (errText e))
    | none =>
      if statusOp s.status = 1 then (s.dst.readBytes 0 s.n).map .image
      else if statusOp s.status = 2 then (s.mout.readBytes 0 s.outLen).map .message
      else none
  else none

/-- Writes of consecutive bytes of a space, from index `i` on. -/
def writesFrom (sp : Space) (i : Nat) : List Byte → List HostMove
  | [] => []
  | v :: vs => .writeBuf sp i v :: writesFrom sp (i + 1) vs

/-- `LOADSRC b0 b1 ...` (R83). -/
def loadSrc (bs : List Byte) : List HostMove := writesFrom .src 0 bs ++ [.writeReg 2 bs.length]

/-- `FILLSRC n v` (R83). -/
def fillSrc (n : Nat) (v : Byte) : List HostMove := loadSrc (List.replicate n v)

/-- `LOADMSG b0 b1 ...` (R83). -/
def loadMsg (bs : List Byte) : List HostMove := writesFrom .min 0 bs ++ [.writeReg 3 bs.length]

/-- `FILLMSG n v` (R83). -/
def fillMsg (n : Nat) (v : Byte) : List HostMove := loadMsg (List.replicate n v)

/-- `SETMAGIC b0 b1 b2` (R83). -/
def setMagic (m : Magic) : List HostMove := [.writeReg 5 m.b0.toNat, .writeReg 6 m.b1.toNat, .writeReg 7 m.b2.toNat]

/-- A `HIDE` or `UNHIDE` line (R83): write the opcode to `CMD`, then wait until `STATUS.STATE = DONE`. -/
def commandLine (i : Instr) : List HostMove := [.writeReg 0 (encode i).toNat, .wait]

/-- `unhide(hide(image, m).image)` (R84). -/
def roundTripScript (image msg : List Byte) : List HostMove :=
  loadSrc image ++ loadMsg msg ++ commandLine .hide ++ [.copyBack] ++ commandLine .unhide

/-- `hide` twice, the second against the already-embedded result (R84). -/
def hideTwiceScript (image msg : List Byte) : List HostMove :=
  loadSrc image ++ loadMsg msg ++ commandLine .hide ++ [.copyBack] ++ commandLine .hide

end Sys2Proof.Machine
end

