-- ==== Sys2Proof/Safety.lean ====
section
/-! DEFINITION. The terms the claims use: when a command is admitted (R169), what the host can see (R196), and the
invariants of the machine. -/

namespace Sys2Proof.Machine

/-! ## Admission (R169) -/

/-- Every byte `buf[i]` with `i < len` has a value. -/
abbrev Written (m : Memory) (len : Nat) : Prop := ∀ i < len, (m.read i).isSome

/-- What both commands need (R169): `STATUS.STATE` is `IDLE` or `DONE`, and `N <= NMAX`. -/
abbrev StartOk (s : State) : Prop := s.resting = true ∧ capAllows s.caps.nmax s.n = true

/-- HIDE is admitted (R169), but for the bytes of `SRC`. -/
abbrev HideStartOk (s : State) : Prop :=
  StartOk s ∧ capAllows s.caps.lmax s.msgLen = true ∧ Written s.min s.msgLen

/-- UNHIDE's scan goes past payload byte `k`: it is decoded and is no terminator. -/
abbrev PayloadBefore (s : State) (k : Nat) : Prop := unpackByte s.pixelReader k ≠ some term

/-- Group `k` of `SRC` is written (R94). -/
abbrev GroupWritten (s : State) (k : Nat) : Prop := ∀ j < 8, (s.src.read (8 * k + j)).isSome

/-- "A write of `c` to `CMD` starts a command if and only if ..." (R169), for the command `i`: for UNHIDE every group up to
and with the terminator's, or every whole group when there is none, has a value. -/
abbrev Admitted : Instr → State → Prop
  | .hide, s => HideStartOk s ∧ (capacityOk s.msgLen s.n = true → Written s.src s.n)
  | .unhide, s => StartOk s ∧ ∀ k < s.n / 8, (∀ j < k, PayloadBefore s j) → GroupWritten s k

/-! ## What the host sees (R196) -/

/-- The host-visible state (R21, R196). `CMD` reads 0 (R25). -/
structure HostView where
  status : Byte
  n : Nat
  msgLen : Nat
  outLen : Nat
  magic : Magic
  src : Memory
  dst : Memory
  min : Memory
  mout : Memory
  deriving DecidableEq, Repr

/-- The host's view of a state (R196). -/
def State.hostView (s : State) : HostView :=
  ⟨s.status, s.n, s.msgLen, s.outLen, s.magic, s.src, s.dst, s.min, s.mout⟩

/-! ## Invariants -/

/-- Every buffer is in canonical form. -/
abbrev MemoryInv (s : State) : Prop :=
  s.src.wf = true ∧ s.dst.wf = true ∧ s.min.wf = true ∧ s.mout.wf = true ∧ s.acc.wf = true

/-- The bytes `STATUS` holds in each phase: "The only values the register ever holds" (R27), with `STATE` the host's view
of `PHASE`. -/
def statusOfPhase : Phase → List Byte
  | .idle => [0x00]
  | .checkCapacity => [0x21]
  | .checkMagic => [0x21]
  | .streamBits => [0x21, 0x41]
  | .validate => [0x41]
  | .done => [0x22, 0x26, 0x2A, 0x42, 0x4E, 0x52]

/-- `STATUS` holds one of its nine values, and the one its phase allows (R27). -/
abbrev StatusInv (s : State) : Prop := s.status ∈ statusOfPhase s.phase

/-- No byte of the buffer is 0x00. -/
abbrev NoZero (m : Memory) : Prop := ∀ c ∈ m, c.2 ≠ term

/-- "`MOUT` never holds a 0x00 byte" (R35), nor does `ACC` (R130), and every byte of `MOUT[0..OUT_LEN)` has a value. -/
abbrev OutputInv (s : State) : Prop := NoZero s.acc ∧ NoZero s.mout ∧ Written s.mout s.outLen

/-- No byte of the buffer stands at or above its capacity (R32). -/
abbrev Within (cap : Option Nat) (m : Memory) : Prop := ∀ c ∈ m, capAllows cap (c.1 + 1) = true

/-- Where the engine may be while it runs (R22, R139): `IDX` never passes `N`, UNHIDE has one accumulated byte for each
whole group it has passed, and the group it is in lies inside the buffer. -/
abbrev EngineInv (s : State) : Prop :=
  match s.phase with
  | .idle => True
  | .done => True
  | .checkCapacity => capAllows s.caps.nmax s.n = true ∧ s.idx = 0
  | .checkMagic => capAllows s.caps.nmax s.n = true ∧ s.idx < 24 ∧ 8 * s.flen ≤ s.n ∧ s.flen = s.msgLen + 4
  | .streamBits =>
    capAllows s.caps.nmax s.n = true ∧ s.idx ≤ s.n ∧
      (statusOp s.status = 1 → s.idx < s.n) ∧
      (statusOp s.status = 2 → s.accLen = s.idx / 8 ∧ (s.idx % 8 ≠ 0 → 8 * (s.idx / 8) + 8 ≤ s.n))
  | .validate => capAllows s.caps.nmax s.n = true ∧ 8 * (s.accLen + 1) ≤ s.n

/-- Every buffer stays inside its capacity (R32, R59), `ACC` inside `OMAX` (R36, R139). -/
abbrev CapacityInv (s : State) : Prop :=
  Within s.caps.nmax s.src ∧ Within s.caps.nmax s.dst ∧ Within s.caps.lmax s.min ∧
    Within (omax s.caps) s.mout ∧ Within (omax s.caps) s.acc ∧ EngineInv s

/-- A pending command word is a command that is admitted (R169), so the engine takes it without a refusal. -/
abbrev PendingInv (s : State) : Prop :=
  s.cmd ≠ 0 → ∃ i, decode s.cmd = .ok i ∧ Admitted i s

end Sys2Proof.Machine
end

