-- ==== Sys2Proof/WellFormed.lean ====
section
/-! DEFINITION. Which terms name a request the spec gives a meaning to. A command word has no fields (R76), so every
`Instr` is well formed; a host move is well formed when the register it names exists, its value fits that register
and the space it writes is one the host may write (R25, R32). -/

namespace Sys2Proof

/-- Every command is well formed: the word has no field that could be out of range (R76). -/
def Instr.wellFormed : Instr → Bool
  | .hide => true
  | .unhide => true

namespace Machine

/-- The registers 0 to 7 exist (R25). -/
def regExists (no : Nat) : Bool := no ≤ 7

/-- `CMD` and the token registers hold 8 bits (R25); `N` and `MSG_LEN` hold any natural number here (R7), and a write of
`STATUS` or `OUT_LEN` is ignored whatever the value (R25). -/
def regHolds (no v : Nat) : Bool := (1 ≤ no && no ≤ 4) || v < 256

/-- R32 gives the host `SRC` and `MIN` to read and write, `DST` and `MOUT` to read. That a write to the last two is ill
formed is a DESIGN CHOICE (log entry 8). -/
def hostWrites : Space → Bool
  | .src => true
  | .dst => false
  | .min => true
  | .mout => false

/-- A move whose request exists on the register map and the buffer map (R25, R32). -/
def HostMove.wellFormed : HostMove → Bool
  | .reset => true
  | .writeReg no v => regExists no && regHolds no v
  | .readReg no => regExists no
  | .writeBuf sp _ _ => hostWrites sp
  | .readBuf _ _ => true
  | .copyBack => true
  | .wait => true

end Machine

end Sys2Proof
end

