-- ==== Sys2Proof/Certificates/Slice0/Obligations.lean ====
section
/-! DEFINITION. The statements for the provers. Each docstring names the rule of spec/ it is about. -/

open Sys2Proof Sys2Proof.Machine

/-! ## The command word -/

/-- R76, R78: `CMD[7:0]` is compared with 0x01 and 0x02; the words are written out from R76's table. -/
def Obligations.CommandWordsDecode : Prop :=
  decode 0b00000001 = .ok .hide ∧ decode 0b00000010 = .ok .unhide ∧
    decodeTableWord 8 0b00000001 = some .hide ∧ decodeTableWord 8 0b00000010 = some .unhide

/-- R76: each command has one word and each word at most one command. -/
def Obligations.EncodeDecodeAgree : Prop :=
  ∀ (c : Byte) (i : Instr), decode c = .ok i ↔ c = encode i

/-- R77: `CMD` values 0x00 and 0x03 to 0xFF select no command, and a write of one of them is refused, in every state. -/
def Obligations.ReservedCodesRefused : Prop :=
  ∀ c : Byte, c ≠ 0x01 → c ≠ 0x02 →
    decode c = .error (.reservedOpcode c) ∧
      (∀ s : State, s.resting = true → hostMove (.writeReg 0 c.toNat) s = .refused (.reservedOpcode c)) ∧
      ∀ s : State, s.resting = false → hostMove (.writeReg 0 c.toNat) s = .refused .commandWhileBusy

/-- A step runs the decoded command: with a command word pending in `CMD`, `step` is `exec` of it, and the step-level
machine makes its START (R26, R191). `CMD` is emptied first. A pending word that is no command, which no host can bring
about, is refused. That a word is pending for one step is the model's choice (log entry 5). -/
def Obligations.StepRunsPendingCommand : Prop :=
  (∀ (s : State) (i : Instr), decode s.cmd = .ok i →
    step s = exec i { s with cmd := 0 } ∧ fineStep s = startCommand i { s with cmd := 0 }) ∧
    ∀ (s : State) (c : Byte), s.cmd ≠ 0 → decode s.cmd = .error (.reservedOpcode c) →
      step s = .refused (.reservedOpcode c) ∧ fineStep s = .refused (.reservedOpcode c)

/-- R26, R169: a host write of a command's word is taken exactly when the command has a transition, and the machine's next
step is that transition; a refused command refuses the write. That the word waits one step in `CMD` is the model's
choice (log entry 5). -/
def Obligations.WrittenCommandRunsNext : Prop :=
  ∀ (s : State) (i : Instr), s.cmd = 0 → s.resting = true →
    (∀ t, exec i s = .next t →
      hostMove (.writeReg 0 (encode i).toNat) s = .next { s with cmd := encode i } ∧
        step { s with cmd := encode i } = .next t) ∧
    ∀ r, exec i s = .refused r → hostMove (.writeReg 0 (encode i).toNat) s = .refused r

/-! ## Reset -/

/-- R38: the values after reset, no byte of any buffer has a value, and nothing runs until the host moves. That the host has
no move to make is log entry 2, and no statement is made of the capacities. -/
def Obligations.ResetValues : Prop :=
  State.reset.cmd = 0 ∧ State.reset.status = 0x00 ∧ State.reset.n = 0 ∧ State.reset.msgLen = 0 ∧
    State.reset.outLen = 0 ∧ State.reset.magic = ⟨0x73, 0x74, 0x67⟩ ∧ State.reset.phase = .idle ∧
    State.reset.idx = 0 ∧ State.reset.shift = 0 ∧ State.reset.flen = 0 ∧ State.reset.accLen = 0 ∧
    State.reset.foundNul = false ∧ State.reset.matched = false ∧
    (∀ i, State.reset.src.read i = none ∧ State.reset.dst.read i = none ∧ State.reset.min.read i = none ∧
      State.reset.mout.read i = none ∧ State.reset.acc.read i = none) ∧
    step State.reset = .next State.reset

/-- R180, R181: reset puts every register at its reset value and takes the value of every buffer byte, in every phase, a
running command's included. That the capacities and the host's two fields stay is the model's choice (log entries 1, 2 and
15). -/
def Obligations.ResetFromAnyPhase : Prop :=
  ∀ (s : State) (rest : List HostMove), s.cmd = 0 → s.inbox = .reset :: rest →
    let t := { State.reset with caps := s.caps, inbox := rest, hostRead := s.hostRead }
    step s = .next t ∧ fineStep s = .next t

/-- R180: a command issued straight after reset is harmless: HIDE reports `STEG_TOO_BIG`, UNHIDE `STEG_BAD_MSG`, whatever the
capacities. That `IDX`, `SHIFT`, `FLEN` and `MATCH` then still hold their reset values is the model's choice (log entry 4):
at the step level `FLEN` would be 4 after HIDE and `MATCH` 1. -/
def Obligations.AfterResetHarmless : Prop :=
  ∀ s : State,
    exec .hide s.applyReset = .next { s.applyReset with status := 0x26, phase := .done } ∧
      exec .unhide s.applyReset = .next { s.applyReset with status := 0x52, phase := .done }

/-! ## Framing -/

/-- R70, R71: the layout and the length of the Framed Message. -/
def Obligations.FrameLayout : Prop :=
  (∀ (magic : Magic) (m : List Byte),
    (frame magic m).length = m.length + 4 ∧ 8 * (frame magic m).length = 8 * m.length + 32 ∧
      (frame magic m)[0]? = some magic.b0 ∧ (frame magic m)[1]? = some magic.b1 ∧
      (frame magic m)[2]? = some magic.b2 ∧ (∀ i < m.length, (frame magic m)[3 + i]? = m[i]?) ∧
      (frame magic m)[m.length + 3]? = some 0x00) ∧
    (∀ magic : Magic, (frame magic []).length = 4 ∧ 8 * (frame magic []).length = 32) ∧
    State.reset.magic = ⟨0x73, 0x74, 0x67⟩

/-- R91: `framebit`, where it is defined, where it is not, and its corner cases and example. -/
def Obligations.FrameBits : Prop :=
  (∀ (f : List Byte) (i : Nat) (b : Byte), i < 8 * f.length → f[i / 8]? = some b →
    framebit f i = some (decide ((b >>> (7 - i % 8)) &&& 1#8 = 1#8))) ∧
    (∀ (f : List Byte) (i : Nat), 8 * f.length ≤ i → framebit f i = none) ∧
    (∀ (magic : Magic) (m : List Byte),
      framebit (frame magic m) 0 = some (magic.b0.getLsbD 7) ∧
        ∀ j < 8, framebit (frame magic m) (8 * (m.length + 3) + j) = some false) ∧
    (let f : List Byte := [0x73, 0x74, 0x67, 0x68, 0x69, 0x00]
     framebit f 0 = some false ∧ framebit f 1 = some true ∧ framebit f 7 = some true ∧ framebit f 8 = some false ∧
      framebit f 47 = some false)

/-- R72: the bit-to-pixel map, in both directions, as the LSBs of an embedded frame, and that no other pixel byte carries a
bit of the stream. -/
def Obligations.BitToPixelMap : Prop :=
  ∀ (px f : List Byte), 8 * f.length ≤ px.length →
    (∀ k < f.length, ∀ j < 8,
      ((embed px f)[8 * k + j]?).map lsbRead = (f[k]?).map fun b => b.getLsbD (7 - j)) ∧
    (∀ i < 8 * f.length,
      ((embed px f)[i]?).map lsbRead = (f[i / 8]?).map fun b => b.getLsbD (7 - i % 8)) ∧
    ∀ i, 8 * f.length ≤ i → (embed px f)[i]? = px[i]?

/-- R92: `lsb_write`, its equivalent form, its corner cases and examples. -/
def Obligations.LsbWriteMapping : Prop :=
  (∀ p : Byte, lsbWrite p true = p ||| 0x01 ∧ lsbWrite p false = p &&& 0xFE ∧
    (∀ b : Bool, lsbWrite p b = (p &&& 0xFE) ||| (if b then 0x01 else 0x00) ∧
      (p.getLsbD 0 = b → lsbWrite p b = p) ∧
      (lsbWrite p b).toNat ≤ p.toNat + 1 ∧ p.toNat ≤ (lsbWrite p b).toNat + 1)) ∧
    lsbWrite 0x00 true = 0x01 ∧ lsbWrite 0xFF false = 0xFE ∧ lsbWrite 0xFF true = 0xFF ∧ lsbWrite 0x00 false = 0x00 ∧
    lsbWrite 0x0B false = 0x0A ∧ lsbWrite 0x30 true = 0x31

/-- R93: `lsb_read` is the low bit and the parity, and bits 7 to 1 have no influence. -/
def Obligations.LsbReadParity : Prop :=
  (∀ p : Byte, lsbRead p = decide (p &&& 0x01 = 0x01) ∧ lsbRead p = decide (p.toNat % 2 = 1) ∧
    ∀ b : Byte, lsbRead (p ^^^ (b <<< 1)) = lsbRead p) ∧
    lsbRead 0x00 = false ∧ lsbRead 0xFF = true ∧ lsbRead 0xFE = false ∧ lsbRead 0x01 = true ∧ lsbRead 0x7B = true

/-- The four laws of one bit, which the spec derives in R100 from R92 and R93. -/
def Obligations.LsbReadAfterWrite : Prop :=
  ∀ (p : Byte) (b c : Bool),
    lsbRead (lsbWrite p b) = b ∧ lsbWrite p b >>> 1 = p >>> 1 ∧ lsbWrite (lsbWrite p b) c = lsbWrite p c ∧
      lsbWrite p (lsbRead p) = p

/-- R94: `unpack_byte` is the sum of the eight LSBs by weight, is not defined on a group that is not wholly there, gives 0x00
on even and 0xFF on odd bytes, and depends on nothing but the eight LSBs. -/
def Obligations.UnpackByteSum : Prop :=
  (∀ (rd : Reader) (k : Nat) (p : Nat → Byte), (∀ j < 8, rd (8 * k + j) = some (p j)) →
    ∃ v, unpackByte rd k = some v ∧
      v.toNat = ∑ j ∈ Finset.range 8, (if lsbRead (p j) then 1 else 0) * 2 ^ (7 - j) ∧
      ((∀ j < 8, (p j).toNat % 2 = 0) → v = 0x00) ∧ ((∀ j < 8, (p j).toNat % 2 = 1) → v = 0xFF)) ∧
    (∀ (rd : Reader) (k j : Nat), j < 8 → rd (8 * k + j) = none → unpackByte rd k = none) ∧
    (∀ (rd rd' : Reader) (k : Nat), (∀ j < 8, (rd (8 * k + j)).map lsbRead = (rd' (8 * k + j)).map lsbRead) →
      unpackByte rd k = unpackByte rd' k) ∧
    unpackByte (listReader [0x0A, 0x31, 0x55, 0x7B, 0x9E, 0xC4, 0xE9, 0x0F]) 0 = some 0x73

/-- Read-after-write of a frame, which the spec derives in R101. -/
def Obligations.EmbedReadBack : Prop :=
  ∀ (px f : List Byte), 8 * f.length ≤ px.length →
    (∀ k < f.length, unpackByte (listReader (embed px f)) k = f[k]?) ∧
      (∀ k, f.length ≤ k → unpackByte (listReader (embed px f)) k = unpackByte (listReader px) k) ∧
      (embed px f).length = px.length ∧
      ∀ i : Nat, ((embed px f)[i]?).map (fun p : Byte => p >>> 1) = (px[i]?).map fun p : Byte => p >>> 1

/-- The detector after embedding, which the spec derives in R102. -/
def Obligations.DetectorAfterEmbed : Prop :=
  ∀ (px m : List Byte) (magic : Magic), 8 * (frame magic m).length ≤ px.length →
    magicPresent (listReader (embed px (frame magic m))) px.length magic = true

/-- The encoding round trip, which the spec derives in R103: the scan of an embedded frame finds the token and the message,
the validator accepts them, and the message comes back. The source need not be unmarked. -/
def Obligations.FrameRoundTrip : Prop :=
  ∀ (px m : List Byte) (magic : Magic), (∀ v ∈ m, v ≠ 0x00) → (∀ v ∈ magic.bytes, v ≠ 0x00) →
    capacityOk m.length px.length = true →
    scan (listReader (embed px (frame magic m))) px.length = some ⟨magic.bytes ++ m, true⟩ ∧
      validate (magic.bytes ++ m) magic = true ∧ (magic.bytes ++ m).drop 3 = m

/-- R96: the bit-accurate capacity rule, its corner cases and examples. -/
def Obligations.CapacityRule : Prop :=
  (∀ l n : Nat, capacityOk l n = decide (8 * (l + 4) ≤ n)) ∧
    (∀ l n : Nat, n < 32 → capacityOk l n = false) ∧ (∀ l : Nat, capacityOk l 32 = true ↔ l = 0) ∧
    (∀ l n : Nat, 32 ≤ n → (capacityOk l n = true ↔ l ≤ n / 8 - 4)) ∧
    (∀ l n : Nat, capacityOk l n = capacityOk l (8 * (n / 8))) ∧
    capacityOk 2 400 = true ∧ capacityOk 2 47 = false ∧ capacityOk 46 400 = true ∧ capacityOk 47 400 = false

/-- The detector of R97: when it holds, that it looks at the LSBs of the first 24 pixel bytes only, and that an all-even or
all-odd buffer is detected only under the token 00 00 00 or FF FF FF. On readers with missing bytes it states the model's
choice of log entry 16. -/
def Obligations.MagicDetector : Prop :=
  ∀ (rd : Reader) (n : Nat) (magic : Magic),
    (magicPresent rd n magic = true ↔
      24 ≤ n ∧ unpackByte rd 0 = some magic.b0 ∧ unpackByte rd 1 = some magic.b1 ∧ unpackByte rd 2 = some magic.b2) ∧
    (∀ rd' : Reader, (∀ i < 24, (rd i).map lsbRead = (rd' i).map lsbRead) →
      magicPresent rd' n magic = magicPresent rd n magic) ∧
    ((∀ i < 24, (rd i).map lsbRead = some false) → magicPresent rd n magic = true → magic = ⟨0x00, 0x00, 0x00⟩) ∧
    ((∀ i < 24, (rd i).map lsbRead = some true) → magicPresent rd n magic = true → magic = ⟨0xFF, 0xFF, 0xFF⟩)

/-- R98: the scan finds the least `k` whose payload byte is 0x00, with the bytes before it, decoding nothing after it; with
none among the whole groups the buffer is exhausted. -/
def Obligations.ScanFindsTerminator : Prop :=
  (∀ (rd : Reader) (n K : Nat) (P : Nat → Byte), K < n / 8 → (∀ k < K, unpackByte rd k = some (P k) ∧ P k ≠ 0x00) →
    unpackByte rd K = some 0x00 → scan rd n = some ⟨(List.range K).map P, true⟩) ∧
    (∀ (rd : Reader) (n : Nat) (P : Nat → Byte), (∀ k < n / 8, unpackByte rd k = some (P k) ∧ P k ≠ 0x00) →
      scan rd n = some ⟨(List.range (n / 8)).map P, false⟩) ∧
    (∀ (rd : Reader) (n : Nat), n < 8 → scan rd n = some ⟨[], false⟩) ∧
    (∀ (rd : Reader) (n : Nat), 8 ≤ n → (∀ j < 8, (rd j).map lsbRead = some false) → scan rd n = some ⟨[], true⟩) ∧
    ∀ (rd : Reader) (n : Nat), (∀ i < 8 * (n / 8), (rd i).isSome) →
      (∀ k < n / 8, ∃ j < 8, (rd (8 * k + j)).map lsbRead = some true) →
      ∃ P, scan rd n = some ⟨P, false⟩ ∧ P.length = n / 8

/-- R99: the validator compares the first three bytes; under a token of non-zero bytes it agrees with the detector on the
buffer scanned, which the spec derives. On readers with missing bytes it rests on the model's choice of log entry 16. -/
def Obligations.FramingValidator : Prop :=
  (∀ (p : List Byte) (magic : Magic), validate p magic = true ↔ 3 ≤ p.length ∧ p.take 3 = magic.bytes) ∧
    ∀ (rd : Reader) (n : Nat) (magic : Magic) (r : Scan), (∀ v ∈ magic.bytes, v ≠ 0x00) → scan rd n = some r →
      r.foundNul = true → validate r.bytes magic = magicPresent rd n magic

/-! ## HIDE -/

/-- R113: the capacity check comes first, uses the two registers only, whatever `SRC` holds, and its failure ends the command
with ERR = 1 and touches nothing else the host sees. -/
def Obligations.HideTooBig : Prop :=
  ∀ s : State, HideStartOk s → s.n < 8 * (s.msgLen + 4) →
    ∃ t, exec .hide s = .next t ∧ t.hostView = { s.hostView with status := 0x26 } ∧ t.phase = .done

/-- R114: a source whose first 24 LSBs spell the token is rejected with ERR = 2, whatever the message; nothing else changes
(the working registers: log entry 4). -/
def Obligations.HideAlreadyHidden : Prop :=
  ∀ s : State, Admitted .hide s → 8 * (s.msgLen + 4) ≤ s.n → magicPresent s.pixelReader s.n s.magic = true →
    exec .hide s = .next { s with status := 0x2A, phase := .done }

/-- R115: HIDE completes: every one of the `N` destination bytes is written, the first `8 * (L + 4)` with the source byte's
upper bits and the frame bit, the rest with the source byte itself. -/
def Obligations.HideEmbeds : Prop :=
  ∀ s : State, Admitted .hide s → 8 * (s.msgLen + 4) ≤ s.n → magicPresent s.pixelReader s.n s.magic = false →
    ∃ (t : State) (m : List Byte), exec .hide s = .next t ∧ s.message = some m ∧
      t.hostView = { s.hostView with dst := t.dst, status := 0x22 } ∧ t.phase = .done ∧
      (∀ i < 8 * (s.msgLen + 4), ∃ p b, s.src.read i = some p ∧ framebit (frame s.magic m) i = some b ∧
        t.dst.read i = some (lsbWrite p b)) ∧
      (∀ i, 8 * (s.msgLen + 4) ≤ i → i < s.n → (t.dst.read i).isSome ∧ t.dst.read i = s.src.read i) ∧
      ∀ i, s.n ≤ i → t.dst.read i = s.dst.read i

/-- R116, R117: the frame of HIDE under every outcome: only `STATUS`, `PHASE` and bytes of `DST` below `N` change, `SRC` never,
and on an error no byte of `DST`. That the working registers other than `PHASE` stay is log entry 4. -/
def Obligations.HideFrame : Prop :=
  ∀ s t : State, exec .hide s = .next t →
    t = { s with dst := t.dst, status := t.status, phase := .done } ∧ t.src = s.src ∧
      (statusErr t.status ≠ 0 → t.dst = s.dst) ∧ ∀ a, s.n ≤ a → t.dst.read a = s.dst.read a

/-- R118: `STATUS` after HIDE. -/
def Obligations.HideStatus : Prop :=
  ∀ s t : State, exec .hide s = .next t →
    statusState t.status = 2 ∧ statusOp t.status = 1 ∧
      (statusErr t.status = 0 ∨ statusErr t.status = 1 ∨ statusErr t.status = 2) ∧
      (statusErr t.status = 1 ↔ s.n < 8 * (s.msgLen + 4)) ∧
      (statusErr t.status = 2 ↔
        8 * (s.msgLen + 4) ≤ s.n ∧ magicPresent s.pixelReader s.n s.magic = true) ∧
      t.outLen = s.outLen ∧ t.mout = s.mout

/-- R121: on an unmarked source a frame of exactly `N` bits succeeds; with any smaller buffer, one pixel byte fewer the nearest,
and with one message byte more, it is `STEG_TOO_BIG`. -/
def Obligations.CapacityBoundary : Prop :=
  ∀ s : State, Admitted .hide s → magicPresent s.pixelReader s.n s.magic = false → 8 * (s.msgLen + 4) = s.n →
    (∃ t, exec .hide s = .next t ∧ t.status = 0x22) ∧
      (∀ n' < s.n, ∃ t, exec .hide { s with n := n' } = .next t ∧ t.status = 0x26) ∧
      ∀ b : Byte, capAllows s.caps.lmax (s.msgLen + 1) = true →
        ∃ t, exec .hide { s with min := s.min.write s.msgLen b, msgLen := s.msgLen + 1 } = .next t ∧ t.status = 0x26

/-- Idempotent rejection, which the spec derives in R120: after an OK HIDE and a copy back, a second HIDE with any message is
rejected with `STEG_MSG`, or with `STEG_TOO_BIG` when the message does not fit. That the working registers other than
`PHASE` stay is the model's choice (log entry 4). -/
def Obligations.HideTwiceRejected : Prop :=
  ∀ s t u v : State, exec .hide s = .next t → t.status = 0x22 → hostMove .copyBack t = .next u →
    v = { u with msgLen := v.msgLen, min := v.min } → HideStartOk v →
    exec .hide v = .next { v with status := if capacityOk v.msgLen v.n then 0x2A else 0x26, phase := .done }

/-! ## UNHIDE -/

/-- R135: UNHIDE completes: with a terminator at payload index `K = |P|`, at least three bytes before it and the first three
the token, `MOUT` and `OUT_LEN` hold the bytes between token and terminator. -/
def Obligations.UnhideReturnsMessage : Prop :=
  ∀ (s : State) (P : List Byte), StartOk s → P.length < s.n / 8 →
    (∀ k < P.length, unpackByte s.pixelReader k = P[k]?) → (∀ v ∈ P, v ≠ 0x00) →
    unpackByte s.pixelReader P.length = some 0x00 → 3 ≤ P.length → P.take 3 = s.magic.bytes →
    ∃ t, exec .unhide s = .next t ∧
      t.hostView = { s.hostView with mout := t.mout, outLen := P.length - 3, status := 0x42 } ∧ t.phase = .done ∧
      t.accLen = P.length ∧ t.foundNul = true ∧
      (∀ i < P.length - 3, t.mout.read i = P[3 + i]? ∧ t.mout.read i ≠ some 0x00) ∧
      (∀ i, P.length - 3 ≤ i → t.mout.read i = s.mout.read i) ∧
      (∀ i < P.length, t.acc.read i = P[i]?) ∧ ∀ i, P.length ≤ i → t.acc.read i = s.acc.read i

/-- R133: no payload byte 0x00 among the whole groups gives ERR = 4, token or no token, and nothing else does; with `N < 8`
nothing is read. -/
def Obligations.UnhideBadMsg : Prop :=
  (∀ (s : State) (P : List Byte), StartOk s → P.length = s.n / 8 →
    (∀ k < P.length, unpackByte s.pixelReader k = P[k]?) → (∀ v ∈ P, v ≠ 0x00) →
    ∃ t, exec .unhide s = .next t ∧
      t.hostView = { s.hostView with outLen := 0, status := 0x52 } ∧ t.phase = .done ∧ t.accLen = P.length ∧
      t.foundNul = false ∧
      (∀ i < P.length, t.acc.read i = P[i]?) ∧ ∀ i, P.length ≤ i → t.acc.read i = s.acc.read i) ∧
    (∀ s t : State, exec .unhide s = .next t →
      (statusErr t.status = 4 ↔ ∀ k < s.n / 8, unpackByte s.pixelReader k ≠ some 0x00)) ∧
    ∀ s : State, StartOk s → s.n < 8 →
      ∃ t, exec .unhide s = .next t ∧ t.hostView = { s.hostView with outLen := 0, status := 0x52 } ∧ t.accLen = 0

/-- R134: a terminator was found and the bytes before it do not begin with the token: ERR = 3, whatever follows the
terminator. -/
def Obligations.UnhideNoMsg : Prop :=
  (∀ (s : State) (P : List Byte), StartOk s → P.length < s.n / 8 →
    (∀ k < P.length, unpackByte s.pixelReader k = P[k]?) → (∀ v ∈ P, v ≠ 0x00) →
    unpackByte s.pixelReader P.length = some 0x00 → ¬(3 ≤ P.length ∧ P.take 3 = s.magic.bytes) →
    ∃ t, exec .unhide s = .next t ∧
      t.hostView = { s.hostView with outLen := 0, status := 0x4E } ∧ t.phase = .done ∧ t.accLen = P.length ∧
      t.foundNul = true) ∧
    ∀ s t : State, exec .unhide s = .next t → statusErr t.status = 3 →
      ∃ k < s.n / 8, unpackByte s.pixelReader k = some 0x00

/-- The frame of UNHIDE under every outcome (R131, R137): only `MOUT` below the delivered length, `OUT_LEN`, `STATUS`, `PHASE`
and the accumulator change; on an error `OUT_LEN` is 0 and no byte of `MOUT` is written. That `IDX`, `SHIFT`, `FLEN` and
`MATCH` stay is log entry 4. -/
def Obligations.UnhideFrame : Prop :=
  ∀ s t : State, exec .unhide s = .next t →
    t = { s with
      mout := t.mout, outLen := t.outLen, acc := t.acc, accLen := t.accLen, foundNul := t.foundNul, status := t.status,
      phase := .done } ∧
      statusState t.status = 2 ∧ statusOp t.status = 2 ∧
      (statusErr t.status = 0 ∨ statusErr t.status = 3 ∨ statusErr t.status = 4) ∧
      (statusErr t.status ≠ 0 → t.outLen = 0 ∧ t.mout = s.mout) ∧
      (∀ a, t.outLen ≤ a → t.mout.read a = s.mout.read a) ∧ ∀ a, t.accLen ≤ a → t.acc.read a = s.acc.read a

/-- The bound on the output, which the spec derives in R139. -/
def Obligations.UnhideOutputBound : Prop :=
  ∀ s t : State, exec .unhide s = .next t →
    t.accLen ≤ s.n / 8 ∧ capAllows (omax s.caps) t.accLen = true ∧
      (statusErr t.status = 0 → 32 ≤ s.n ∧ t.outLen ≤ s.n / 8 - 4 ∧ t.accLen ≤ s.n / 8 - 1)

/-- R73: bits 7 to 1 of the pixel bytes have no influence: on two sources with the same LSBs UNHIDE does exactly the same, and
HIDE reports the same `STATUS`. The bytes of `DST` are HideEmbeds's. -/
def Obligations.UpperBitsNoInfluence : Prop :=
  ∀ (s t : State) (src' : Memory), (∀ i < s.n, (s.src.read i).map lsbRead = (src'.read i).map lsbRead) →
    (exec .unhide s = .next t → exec .unhide { s with src := src' } = .next { t with src := src' }) ∧
      (exec .hide s = .next t → ∃ t', exec .hide { s with src := src' } = .next t' ∧ t'.status = t.status)

/-- R74: pixel bytes after the terminator's group are never examined: they may even have no value. -/
def Obligations.UnhideIgnoresTail : Prop :=
  ∀ (s t : State) (src' : Memory), exec .unhide s = .next t → t.foundNul = true →
    (∀ i < 8 * (t.accLen + 1), s.src.read i = src'.read i) →
    exec .unhide { s with src := src' } = .next { t with src := src' }

/-! ## Both commands together -/

/-- The round trip of R84 and R189 on the machine: HIDE, copy back, UNHIDE returns the message, when it holds no 0x00 byte
and neither does the token (R103 with the preconditions of conflict C4). -/
def Obligations.MachineRoundTrip : Prop :=
  ∀ s t : State, exec .hide s = .next t → t.status = 0x22 → (∀ i < s.msgLen, s.min.read i ≠ some 0x00) →
    (∀ v ∈ s.magic.bytes, v ≠ 0x00) →
    ∃ u v, hostMove .copyBack t = .next u ∧ exec .unhide u = .next v ∧ v.status = 0x42 ∧ v.outLen = s.msgLen ∧
      (∀ i < s.msgLen, v.mout.read i = s.min.read i) ∧ v.n = s.n

/-- A 0x00 byte at message index `z` (the first such) ends the frame early: the round trip returns the first `z` bytes (R138,
R74); a token with a 0x00 byte makes it report `STEG_NO_MSG`. -/
def Obligations.EmbeddedNulTruncates : Prop :=
  ∀ s t : State, exec .hide s = .next t → t.status = 0x22 →
    (∀ z < s.msgLen, s.min.read z = some 0x00 → (∀ i < z, s.min.read i ≠ some 0x00) →
      (∀ v ∈ s.magic.bytes, v ≠ 0x00) →
      ∃ u v, hostMove .copyBack t = .next u ∧ exec .unhide u = .next v ∧ v.status = 0x42 ∧ v.outLen = z ∧
        ∀ i < z, v.mout.read i = s.min.read i) ∧
    (0x00 ∈ s.magic.bytes →
      ∃ u v, hostMove .copyBack t = .next u ∧ exec .unhide u = .next v ∧ v.status = 0x4E ∧ v.outLen = 0)

/-- R56: running the same command twice on the same operands gives the same result both times. -/
def Obligations.CommandRepeats : Prop :=
  ∀ (i : Instr) (s t : State), MemoryInv s → exec i s = .next t → exec i t = .next t

/-- R169: a command starts exactly when it is admitted, an admitted one always completes with OK or one of the four kinds, the
host's write of `CMD` is taken exactly then, and every other write of `CMD` is refused. -/
def Obligations.AdmissionExact : Prop :=
  (∀ (i : Instr) (s : State), Admitted i s ↔ ∃ t, exec i s = .next t) ∧
    (∀ (i : Instr) (s : State), ¬Admitted i s → ∃ r, exec i s = .refused r) ∧
    (∀ (i : Instr) (s t : State), exec i s = .next t → t.status ∈ statusOfPhase .done) ∧
    ∀ (s : State) (c : Byte),
      ((∃ i, decode c = .ok i ∧ Admitted i s) → ∃ t, hostMove (.writeReg 0 c.toNat) s = .next t) ∧
        ((¬∃ i, decode c = .ok i ∧ Admitted i s) → ∃ r, hostMove (.writeReg 0 c.toNat) s = .refused r)

/-- The engine never writes an operand: no command and no engine step writes `N` (R28), `MSG_LEN` (R29), `MAGIC` (R31), `SRC`
(R33) or `MIN` (R35). -/
def Obligations.EngineNeverWritesOperands : Prop :=
  ∀ (i : Instr) (s t : State),
    (exec i s = .next t ∨ startCommand i s = .next t ∨ engineStep s = .next t) →
    t.n = s.n ∧ t.msgLen = s.msgLen ∧ t.magic = s.magic ∧ t.src = s.src ∧ t.min = s.min ∧ t.caps = s.caps ∧
      t.inbox = s.inbox ∧ t.hostRead = s.hostRead ∧ t.cmd = s.cmd

/-! ## The host's side -/

/-- The register map read by the host (R25): the eight registers, `CMD` reading 0, no side effect, and no number above 7. -/
def Obligations.HostReadsRegisters : Prop :=
  ∀ s : State, s.resting = true →
    hostMove (.readReg 0) s = .next { s with hostRead := some 0 } ∧
    hostMove (.readReg 1) s = .next { s with hostRead := some s.status.toNat } ∧
    hostMove (.readReg 2) s = .next { s with hostRead := some s.n } ∧
    hostMove (.readReg 3) s = .next { s with hostRead := some s.msgLen } ∧
    hostMove (.readReg 4) s = .next { s with hostRead := some s.outLen } ∧
    hostMove (.readReg 5) s = .next { s with hostRead := some s.magic.b0.toNat } ∧
    hostMove (.readReg 6) s = .next { s with hostRead := some s.magic.b1.toNat } ∧
    hostMove (.readReg 7) s = .next { s with hostRead := some s.magic.b2.toNat } ∧
    ∀ no, 8 ≤ no → hostMove (.readReg no) s = .refused (.noSuchRegister no)

/-- The register map written by the host (R25): `STATUS` and `OUT_LEN` ignore writes, the others take them, and no number
above 7 exists. -/
def Obligations.HostWritesRegisters : Prop :=
  ∀ (s : State) (v : Nat), s.resting = true →
    hostMove (.writeReg 1 v) s = .next s ∧ hostMove (.writeReg 4 v) s = .next s ∧
    hostMove (.writeReg 2 v) s = .next { s with n := v } ∧
    hostMove (.writeReg 3 v) s = .next { s with msgLen := v } ∧
    (∀ b : Byte,
      hostMove (.writeReg 5 b.toNat) s = .next { s with magic := ⟨b, s.magic.b1, s.magic.b2⟩ } ∧
      hostMove (.writeReg 6 b.toNat) s = .next { s with magic := ⟨s.magic.b0, b, s.magic.b2⟩ } ∧
      hostMove (.writeReg 7 b.toNat) s = .next { s with magic := ⟨s.magic.b0, s.magic.b1, b⟩ }) ∧
    ∀ no, 8 ≤ no → hostMove (.writeReg no v) s = .refused (.noSuchRegister no)

/-- In `BUSY` the host may read `STATUS` and nothing else (R40, R168; the reads R168 does not list: log entry 10). -/
def Obligations.BusyHostAccess : Prop :=
  ∀ s : State, statusState s.status = 1 →
    hostMove (.readReg 1) s = .next { s with hostRead := some s.status.toNat } ∧
      (∀ no, no ≠ 1 → hostMove (.readReg no) s = .refused .hostAccessWhileBusy) ∧
      (∀ v, hostMove (.writeReg 0 v) s = .refused .commandWhileBusy) ∧
      (∀ no v, no ≠ 0 → hostMove (.writeReg no v) s = .refused .hostAccessWhileBusy) ∧
      (∀ sp i v, hostMove (.writeBuf sp i v) s = .refused .hostAccessWhileBusy) ∧
      (∀ sp i, hostMove (.readBuf sp i) s = .refused .hostAccessWhileBusy) ∧
      hostMove .copyBack s = .refused .hostAccessWhileBusy

/-- A byte the host has written is the byte it reads, and the write touches no other byte of any space (R32, R61). -/
def Obligations.HostBufferWriteThenRead : Prop :=
  ∀ (sp : Space) (i : Nat) (v : Byte) (s t : State), hostMove (.writeBuf sp i v) s = .next t →
    hostMove (.readBuf sp i) t = .next { t with hostRead := some v.toNat } ∧
      (∀ sp' j, (sp' ≠ sp ∨ j ≠ i) → (t.buffer sp').read j = (s.buffer sp').read j) ∧
      t = { s with src := t.src, min := t.min }

/-- A move that names no register (R25), a value its register does not hold, or a space R32 gives the host only to read is
refused. The refusals of the too wide value and of the write to `DST` or `MOUT` are the model's choice (log entry 8). -/
def Obligations.IllFormedMoveRefused : Prop :=
  ∀ (m : HostMove) (s : State), m.wellFormed = false → ∃ r, hostMove m s = .refused r

/-- `IDLE` and `DONE` are the wait states (R38, R166): with no command pending and no move of the host the machine stays as
it is. -/
def Obligations.IdleEngineWaits : Prop :=
  ∀ s : State, s.cmd = 0 → s.inbox = [] → s.phase = .idle ∨ s.phase = .done → step s = .next s ∧ fineStep s = .next s

/-- R80, R167: the four tokens are distinct beginnings: whatever the descriptions are, the text of an error begins with its own
token and with no other. It holds for every value of `Config.errDescription` (log entry 7). -/
def Obligations.ErrorTextTokens : Prop :=
  ∀ e e' : ErrKind, errToken e <+: errText e' ↔ e = e'

/-! ## Invariants -/

/-- Every step, at either level, keeps every buffer in canonical form. -/
def Obligations.StepKeepsMemoryCanonical : Prop :=
  ∀ s t : State, MemoryInv s → (step s = .next t ∨ fineStep s = .next t) → MemoryInv t

/-- R27: `STATUS` only ever holds its nine values, each in its phase, and every step keeps that. -/
def Obligations.StepKeepsStatusLegal : Prop :=
  ∀ s t : State, StatusInv s → (step s = .next t ∨ fineStep s = .next t) → StatusInv t

/-- `MOUT` never holds a 0x00 byte and every byte of `MOUT[0..OUT_LEN)` has a value (R35, R130), and every step keeps that. -/
def Obligations.StepKeepsOutputs : Prop :=
  ∀ s t : State, OutputInv s → (step s = .next t ∨ fineStep s = .next t) → OutputInv t

/-- No index leaves its buffer: `IDX` stays within `N`, and every buffer within its capacity (R22, R59, R139). The premise
`StatusInv` is an invariant stated on its own. -/
def Obligations.StepKeepsCapacity : Prop :=
  ∀ s t : State, StatusInv s → CapacityInv s → (step s = .next t ∨ fineStep s = .next t) → CapacityInv t

/-- A pending command word is always an admitted command (R169), so the step that takes it never refuses it. That a word is
pending for one step is the model's choice (log entry 5). -/
def Obligations.StepKeepsPendingAdmitted : Prop :=
  (∀ s t : State, PendingInv s → (step s = .next t ∨ fineStep s = .next t) → PendingInv t) ∧
    ∀ s : State, PendingInv s → s.cmd ≠ 0 → ∃ t, step s = .next t

/-- The state after reset meets every invariant. -/
def Obligations.ResetMeetsInvariants : Prop :=
  MemoryInv State.reset ∧ StatusInv State.reset ∧ OutputInv State.reset ∧ CapacityInv State.reset ∧
    PendingInv State.reset

/-! ## The step level -/

/-- R191: START. -/
def Obligations.StartStep : Prop :=
  ∀ s : State,
    (Admitted .hide s → startCommand .hide s = .next { s with
      status := 0x21, idx := 0, shift := 0, matched := true, foundNul := false, accLen := 0,
      phase := .checkCapacity }) ∧
    (Admitted .unhide s → startCommand .unhide s = .next { s with
      status := 0x41, idx := 0, shift := 0, matched := true, foundNul := false, accLen := 0,
      phase := .streamBits }) ∧
    ∀ i, ¬Admitted i s → ∃ r, startCommand i s = .refused r

/-- R192: the `CHECK_CAPACITY` step. -/
def Obligations.CheckCapacityStep : Prop :=
  ∀ s : State, s.phase = .checkCapacity →
    (s.n < 8 * (s.msgLen + 4) →
      engineStep s = .next { s with flen := s.msgLen + 4, status := 0x26, phase := .done }) ∧
    (8 * (s.msgLen + 4) ≤ s.n →
      engineStep s = .next { s with flen := s.msgLen + 4, phase := .checkMagic })

/-- The 24 `CHECK_MAGIC` steps (R193): from `IDX = 0` with `MATCH = 1` they reach ERR = 2 exactly when the detector holds, and
`STREAM_BITS` with `IDX = 0` otherwise, whatever `SHIFT` held. -/
def Obligations.CheckMagicPhase : Prop :=
  ∀ s : State, s.phase = .checkMagic → s.idx = 0 → s.matched = true → 24 ≤ s.n → Written s.src 24 →
    ∃ t, runEngine 24 s = .next t ∧
      if magicPresent s.pixelReader s.n s.magic then
        t = { s with idx := 24, shift := s.magic.b2, status := 0x2A, phase := .done }
      else t = { s with idx := 0, shift := t.shift, matched := false, phase := .streamBits }

/-- The refinement of HIDE (R196) with the step counts of R197: after START the engine is `BUSY` for exactly the steps R197
gives, and then stands in the host-visible state of the architectural level. -/
def Obligations.HideStepLevelRefines : Prop :=
  ∀ s t : State, exec .hide s = .next t →
    ∃ u, startCommand .hide s = .next (s.started .hide) ∧
      (let steps := if t.status = 0x26 then 1 else if t.status = 0x2A then 1 + 24 else 1 + 24 + s.n
       runEngine steps (s.started .hide) = .next u ∧ u.hostView = t.hostView ∧ u.phase = .done ∧
        ∀ k < steps, ∃ w, runEngine k (s.started .hide) = .next w ∧ w.status = 0x21)

/-- The refinement of UNHIDE (R196) with the step counts of R197. -/
def Obligations.UnhideStepLevelRefines : Prop :=
  ∀ s t : State, exec .unhide s = .next t →
    ∃ u, startCommand .unhide s = .next (s.started .unhide) ∧
      (let steps := if t.foundNul then 8 * (t.accLen + 1) + 1 else 8 * (s.n / 8) + 1
       runEngine steps (s.started .unhide) = .next u ∧ u.hostView = t.hostView ∧ u.phase = .done ∧
        u.acc = t.acc ∧ u.accLen = t.accLen ∧ u.foundNul = t.foundNul ∧
        ∀ k < steps, ∃ w, runEngine k (s.started .unhide) = .next w ∧ w.status = 0x41)
end

