-- ==== Sys2Proof/Laws/Buffer.lean ====
section
/-! SUPPORT. The laws of buffers: a read after a write, and that every operation keeps the canonical form and the
properties the invariants speak of. -/

namespace Sys2Proof.Machine

/-- A write changes the byte written and no other. -/
theorem read_write (m : Memory) (i j : Nat) (v : Byte) :
    (m.write i v).read j = if i = j then some v else m.read j := by
  induction m with
  | nil => simp [Memory.write, Memory.read]
  | cons c m ih =>
    obtain ⟨a, w⟩ := c
    simp only [Memory.write]
    by_cases h1 : i < a
    · simp [Memory.read, h1]
    · by_cases h2 : a = i
      · by_cases h3 : i = j <;> simp [Memory.read, h2, h3]
      · by_cases h3 : i = j
        · subst h3; simp [Memory.read, ih, h1, h2]
        · simp [Memory.read, ih, h1, h2, h3]

@[simp] theorem read_nil (i : Nat) : Memory.read [] i = none := rfl

/-- Bytes written in index order: inside the range the new bytes, outside it the old ones. -/
theorem read_writeBytes (m : Memory) (i j : Nat) (vs : List Byte) :
    (m.writeBytes i vs).read j = if i ≤ j ∧ j < i + vs.length then vs[j - i]? else m.read j := by
  induction vs generalizing m i with
  | nil => simp only [Memory.writeBytes, List.length_nil]; split <;> first | rfl | omega
  | cons v vs ih =>
    simp only [Memory.writeBytes, ih, read_write, List.length_cons]
    by_cases h : i = j
    · subst h; simp
    · by_cases h1 : i + 1 ≤ j ∧ j < i + 1 + vs.length
      · rw [if_pos h1, if_pos (by omega), show j - i = (j - (i + 1)) + 1 by omega]; simp
      · rw [if_neg h1, if_neg h, if_neg (by omega)]

/-- From index 0 on, as both commands write their results. -/
theorem read_writeBytes_zero (m : Memory) (j : Nat) (vs : List Byte) :
    (m.writeBytes 0 vs).read j = if j < vs.length then vs[j]? else m.read j := by
  simp [read_writeBytes]

/-- The last byte of a range is written last. -/
theorem writeBytes_snoc (m : Memory) (i : Nat) (vs : List Byte) (v : Byte) :
    m.writeBytes i (vs ++ [v]) = (m.writeBytes i vs).write (i + vs.length) v := by
  induction vs generalizing m i with
  | nil => rfl
  | cons w vs ih =>
    simp only [List.cons_append, Memory.writeBytes, ih, List.length_cons]
    rw [show i + 1 + vs.length = i + (vs.length + 1) by omega]

/-- Reading a range succeeds with exactly the bytes that stand there. -/
theorem readBytes_eq_some_iff (m : Memory) (i len : Nat) (vs : List Byte) :
    m.readBytes i len = some vs ↔ vs.length = len ∧ ∀ j < len, m.read (i + j) = vs[j]? := by
  induction len generalizing i vs with
  | zero => cases vs <;> simp [Memory.readBytes]
  | succ len ih =>
    simp only [Memory.readBytes]
    constructor
    · intro h
      split at h
      · rename_i v ws hv hws
        cases h
        obtain ⟨hl, hr⟩ := (ih _ _).1 hws
        refine ⟨by simp [hl], fun j hj => ?_⟩
        cases j with
        | zero => simpa using hv
        | succ j => simpa [Nat.add_assoc, Nat.add_comm 1 j] using hr j (by omega)
      · cases h
    · rintro ⟨hl, hr⟩
      cases vs with
      | nil => simp at hl
      | cons v ws =>
        have h0 := hr 0 (by omega)
        have hws : m.readBytes (i + 1) len = some ws := by
          refine (ih _ _).2 ⟨by simpa using hl, fun j hj => ?_⟩
          have := hr (j + 1) (by omega)
          simpa [Nat.add_assoc, Nat.add_comm 1 j] using this
        simp only [Nat.add_zero, List.getElem?_cons_zero] at h0
        rw [h0, hws]

/-- Reading a range succeeds exactly when every byte of it has a value. -/
theorem readBytes_isSome_iff (m : Memory) (i len : Nat) :
    (m.readBytes i len).isSome ↔ ∀ j < len, (m.read (i + j)).isSome := by
  induction len generalizing i with
  | zero => simp [Memory.readBytes]
  | succ len ih =>
    have ih' := ih (i + 1)
    simp only [Memory.readBytes]
    constructor
    · intro h j hj
      split at h
      · rename_i v ws hv hws
        cases j with
        | zero => simp [hv]
        | succ j =>
          have := (ih'.1 (by simp [hws])) j (by omega)
          simpa [Nat.add_assoc, Nat.add_comm 1 j] using this
      · cases h
    · intro h
      have h0 : (m.read i).isSome := by simpa using h 0 (by omega)
      have h1 : (m.readBytes (i + 1) len).isSome := ih'.2 fun j hj => by
        have := h (j + 1) (by omega)
        simpa [Nat.add_assoc, Nat.add_comm 1 j] using this
      obtain ⟨v, hv⟩ := Option.isSome_iff_exists.1 h0
      obtain ⟨ws, hws⟩ := Option.isSome_iff_exists.1 h1
      simp [hv, hws]

/-- The bytes of a written range, from index 0 on, as a list. -/
theorem written_iff_readBytes (m : Memory) (len : Nat) : Written m len ↔ ∃ vs, m.readBytes 0 len = some vs := by
  rw [← Option.isSome_iff_exists, readBytes_isSome_iff]; simp

/-- A write reaches no cell but its own. -/
theorem mem_write {m : Memory} {i : Nat} {v : Byte} {c : Host.Cell} (h : c ∈ m.write i v) : c = (i, v) ∨ c ∈ m := by
  induction m with
  | nil => simpa [Memory.write] using h
  | cons d m ih =>
    obtain ⟨a, w⟩ := d
    simp only [Memory.write] at h
    split at h
    · simpa using h
    · split at h
      · rcases List.mem_cons.1 h with h | h
        · exact .inl h
        · exact .inr (List.mem_cons_of_mem _ h)
      · rcases List.mem_cons.1 h with h | h
        · exact .inr (by simp [h])
        · rcases ih h with h | h
          · exact .inl h
          · exact .inr (List.mem_cons_of_mem _ h)

/-- What holds of every old cell and of every new one holds of every cell after the bytes are written. -/
theorem forall_writeBytes {P : Host.Cell → Prop} {m : Memory} {i : Nat} {vs : List Byte} (hm : ∀ c ∈ m, P c)
    (hv : ∀ j v, vs[j]? = some v → P (i + j, v)) : ∀ c ∈ m.writeBytes i vs, P c := by
  induction vs generalizing m i with
  | nil => simpa [Memory.writeBytes] using hm
  | cons v vs ih =>
    refine ih (fun c hc => ?_) fun j w hj => ?_
    · rcases mem_write hc with rfl | hc
      · simpa using hv 0 v rfl
      · exact hm c hc
    · have := hv (j + 1) w (by simpa using hj)
      rwa [show i + (j + 1) = i + 1 + j by omega] at this

/-- A write keeps the canonical form. -/
theorem write_wf {m : Memory} (i : Nat) (v : Byte) (h : m.wf = true) : (m.write i v).wf = true := by
  simp only [Memory.wf, decide_eq_true_eq] at h ⊢
  induction m with
  | nil => simp [Memory.write]
  | cons c m ih =>
    obtain ⟨a, w⟩ := c
    obtain ⟨ha, hm⟩ := List.pairwise_cons.1 h
    simp only [Memory.write]
    split
    · rename_i hi
      refine List.pairwise_cons.2 ⟨fun d hd => ?_, h⟩
      rcases List.mem_cons.1 hd with rfl | hd
      · exact hi
      · exact Nat.lt_trans hi (ha d hd)
    · split
      · rename_i he
        subst he
        exact List.pairwise_cons.2 ⟨ha, hm⟩
      · refine List.pairwise_cons.2 ⟨fun d hd => ?_, ih hm⟩
        rcases mem_write hd with rfl | hd
        · simp only; omega
        · exact ha d hd

/-- Writing bytes keeps the canonical form. -/
theorem writeBytes_wf {m : Memory} (i : Nat) (vs : List Byte) (h : m.wf = true) : (m.writeBytes i vs).wf = true := by
  induction vs generalizing m i with
  | nil => exact h
  | cons v vs ih => exact ih _ (write_wf i v h)

/-- A buffer with nothing in it is canonical. -/
@[simp] theorem wf_nil : Memory.wf [] = true := rfl

/-- The buffers after reset are canonical (R38). -/
theorem reset_memoryInv : MemoryInv State.reset := ⟨rfl, rfl, rfl, rfl, rfl⟩

/-- A cell of the buffer is what a read finds, in canonical form. -/
theorem read_of_mem {m : Memory} (h : m.wf = true) {c : Host.Cell} (hc : c ∈ m) : m.read c.1 = some c.2 := by
  simp only [Memory.wf, decide_eq_true_eq] at h
  induction m with
  | nil => cases hc
  | cons d m ih =>
    obtain ⟨hd, hm⟩ := List.pairwise_cons.1 h
    rcases List.mem_cons.1 hc with rfl | hc
    · simp [Memory.read]
    · have : d.1 ≠ c.1 := Nat.ne_of_lt (hd c hc)
      rw [show Memory.read (d :: m) c.1 = if d.1 = c.1 then some d.2 else Memory.read m c.1 from rfl, if_neg this]
      exact ih hc hm

/-- What a read finds is a cell of the buffer. -/
theorem mem_of_read {m : Memory} {i : Nat} {v : Byte} (h : m.read i = some v) : (i, v) ∈ m := by
  induction m with
  | nil => cases h
  | cons d m ih =>
    obtain ⟨a, w⟩ := d
    simp only [Memory.read] at h
    split at h
    · rename_i he; cases h; subst he; exact List.mem_cons_self
    · exact List.mem_cons_of_mem _ (ih h)

/-- Writing the byte that stands there changes nothing, in canonical form. -/
theorem write_of_read {m : Memory} {i : Nat} {v : Byte} (hw : m.wf = true) (h : m.read i = some v) :
    m.write i v = m := by
  simp only [Memory.wf, decide_eq_true_eq] at hw
  revert hw h
  induction m with
  | nil => intro h; cases h
  | cons d m ih =>
    intro h hw
    obtain ⟨a, w⟩ := d
    obtain ⟨hd, hm⟩ := List.pairwise_cons.1 hw
    simp only [Memory.read] at h
    simp only [Memory.write]
    split at h
    · rename_i he; cases h; subst he; simp
    · rename_i he
      have := hd _ (mem_of_read h)
      simp only at this
      rw [if_neg (by omega), if_neg he, ih h hm]

/-- Writing the bytes that stand there changes nothing, in canonical form. -/
theorem writeBytes_of_read {m : Memory} {i : Nat} {vs : List Byte} (hw : m.wf = true)
    (h : ∀ j < vs.length, m.read (i + j) = vs[j]?) : m.writeBytes i vs = m := by
  induction vs generalizing i with
  | nil => rfl
  | cons v vs ih =>
    have h0 : m.read i = some v := by simpa using h 0 (by simp)
    simp only [Memory.writeBytes, write_of_read hw h0]
    refine ih fun j hj => ?_
    have := h (j + 1) (by simpa using hj)
    simpa [Nat.add_assoc, Nat.add_comm 1 j] using this

/-- The bytes last written are written again without effect. -/
theorem writeBytes_twice {m : Memory} (i : Nat) (vs : List Byte) (hw : m.wf = true) :
    (m.writeBytes i vs).writeBytes i vs = m.writeBytes i vs := by
  refine writeBytes_of_read (writeBytes_wf i vs hw) fun j hj => ?_
  simp [read_writeBytes, hj]

end Sys2Proof.Machine
end

