-- ==== Sys2Proof/Laws/Framing.lean ====
section
/-! SUPPORT. What each framing primitive of Machine/Framing.lean does, said once: the bit mapping, embedding, unpacking a
group, the scan and the detector. -/

namespace Sys2Proof.Machine

/-! ## One bit -/

/-- `lsbRead` is bit 0 (R93). -/
theorem lsbRead_eq_bit (p : Byte) : lsbRead p = p.getLsbD 0 := by revert p; decide

/-- The bit written is the bit read (R100). -/
@[simp] theorem lsbRead_lsbWrite (p : Byte) (b : Bool) : lsbRead (lsbWrite p b) = b := by revert p b; decide

/-- A shift moves the old bits up by one and brings the pixel's bit in at the bottom (R94). -/
theorem getLsbD_shiftIn (v p : Byte) (m : Nat) (hm : m < 8) :
    (shiftIn v p).getLsbD m = if m = 0 then lsbRead p else v.getLsbD (m - 1) := by
  unfold shiftIn
  generalize lsbRead p = b
  revert v b
  have : m = 0 ∨ m = 1 ∨ m = 2 ∨ m = 3 ∨ m = 4 ∨ m = 5 ∨ m = 6 ∨ m = 7 := by omega
  rcases this with rfl | rfl | rfl | rfl | rfl | rfl | rfl | rfl <;> decide

/-- A shift looks at the pixel's LSB only (R73). -/
theorem shiftIn_congr {p q : Byte} (v : Byte) (h : lsbRead p = lsbRead q) : shiftIn v p = shiftIn v q := by
  simp [shiftIn, h]

/-! ## Groups -/

/-- The bits of a byte assembled by shifts: the last pixel's in bit 0, earlier ones above it, then the old bits. -/
theorem getLsbD_shiftGroup {rd : Reader} {i len : Nat} {v w : Byte} {p : Nat → Byte}
    (hp : ∀ j < len, rd (i + j) = some (p j)) (h : shiftGroup rd i len v = some w) (m : Nat) (hm : m < 8) :
    w.getLsbD m = if m < len then lsbRead (p (len - 1 - m)) else v.getLsbD (m - len) := by
  induction len generalizing i v p with
  | zero => simp only [shiftGroup, Option.some.injEq] at h; subst h; simp
  | succ len ih =>
    have h0 : rd i = some (p 0) := by simpa using hp 0 (by omega)
    simp only [shiftGroup, h0] at h
    have := ih (p := fun j => p (j + 1)) (fun j hj => by
      have := hp (j + 1) (by omega)
      rwa [show i + (j + 1) = i + 1 + j by omega] at this) h
    rw [this]
    by_cases h1 : m < len
    · rw [if_pos h1, if_pos (by omega), show len - 1 - m + 1 = len + 1 - 1 - m by omega]
    · rw [if_neg h1, getLsbD_shiftIn _ _ _ (by omega)]
      by_cases h2 : m - len = 0
      · rw [if_pos h2, if_pos (by omega), show len + 1 - 1 - m = 0 by omega]
      · rw [if_neg h2, if_neg (by omega), show m - len - 1 = m - (len + 1) by omega]

/-- Shifts complete exactly when every pixel byte is there. -/
theorem shiftGroup_isSome_iff (rd : Reader) (i len : Nat) (v : Byte) :
    (shiftGroup rd i len v).isSome ↔ ∀ j < len, (rd (i + j)).isSome := by
  induction len generalizing i v with
  | zero => simp [shiftGroup]
  | succ len ih =>
    cases h0 : rd i with
    | none =>
      simp only [shiftGroup, h0]
      constructor
      · intro h; cases h
      · intro h; have := h 0 (by omega); rw [Nat.add_zero, h0] at this; exact this
    | some p =>
      simp only [shiftGroup, h0, ih]
      constructor
      · intro h j hj
        cases j with
        | zero => simp [h0]
        | succ j => have := h j (by omega); rwa [show i + 1 + j = i + (j + 1) by omega] at this
      · intro h j hj
        have := h (j + 1) (by omega)
        rwa [show i + (j + 1) = i + 1 + j by omega] at this

/-- Shifts depend on the pixels' LSBs only (R73, R94). -/
theorem shiftGroup_congr {rd rd' : Reader} {i len : Nat} (v : Byte)
    (h : ∀ j < len, (rd (i + j)).map lsbRead = (rd' (i + j)).map lsbRead) :
    shiftGroup rd i len v = shiftGroup rd' i len v := by
  induction len generalizing i v with
  | zero => rfl
  | succ len ih =>
    have h0 : (rd i).map lsbRead = (rd' i).map lsbRead := by simpa using h 0 (by omega)
    have hs : ∀ v, shiftGroup rd (i + 1) len v = shiftGroup rd' (i + 1) len v := fun v => ih v fun j hj => by
      have := h (j + 1) (by omega)
      rwa [show i + (j + 1) = i + 1 + j by omega] at this
    simp only [shiftGroup]
    cases h1 : rd i <;> cases h2 : rd' i <;> simp only [h1, h2, Option.map_none, Option.map_some] at h0
    · rfl
    · cases h0
    · cases h0
    · simp only [Option.some.injEq] at h0
      simp only [shiftIn_congr v h0, hs]

/-- A payload byte depends on its group's LSBs only (R73, R94). -/
theorem unpackByte_congr {rd rd' : Reader} {k : Nat}
    (h : ∀ j < 8, (rd (8 * k + j)).map lsbRead = (rd' (8 * k + j)).map lsbRead) :
    unpackByte rd k = unpackByte rd' k := shiftGroup_congr _ h

/-- A payload byte is there exactly when its whole group is (R94). -/
theorem unpackByte_isSome_iff (rd : Reader) (k : Nat) :
    (unpackByte rd k).isSome ↔ ∀ j < 8, (rd (8 * k + j)).isSome := shiftGroup_isSome_iff ..

/-- Bit `7 - j` of a payload byte is the LSB of pixel `j` of its group (R94, R72). -/
theorem getLsbD_unpackByte {rd : Reader} {k : Nat} {w : Byte} (h : unpackByte rd k = some w) (j : Nat) (hj : j < 8) :
    (rd (8 * k + j)).map lsbRead = some (w.getLsbD (7 - j)) := by
  have hs := (unpackByte_isSome_iff rd k).1 (by simp [h])
  have := getLsbD_shiftGroup (p := fun j => (rd (8 * k + j)).getD 0)
    (fun j hj => by obtain ⟨p, hp⟩ := Option.isSome_iff_exists.1 (hs j hj); simp [hp]) h (7 - j) (by omega)
  rw [this, if_pos (by omega), show 8 - 1 - (7 - j) = j by omega]
  obtain ⟨p, hp⟩ := Option.isSome_iff_exists.1 (hs j hj)
  simp [hp]

/-- Two bytes with the same eight bits are the same. -/
theorem byte_eq_of_bits {v w : Byte} (h : ∀ j < 8, v.getLsbD (7 - j) = w.getLsbD (7 - j)) : v = w := by
  refine BitVec.eq_of_getLsbD_eq fun i hi => ?_
  have := h (7 - i) (by omega)
  rwa [show 7 - (7 - i) = i by omega] at this

/-- A group whose LSBs are the bits of `b`, most significant first, unpacks to `b` (R94, R101). -/
theorem unpackByte_eq_of_bits {rd : Reader} {k : Nat} {b : Byte}
    (h : ∀ j < 8, (rd (8 * k + j)).map lsbRead = some (b.getLsbD (7 - j))) : unpackByte rd k = some b := by
  have hs : (unpackByte rd k).isSome := (unpackByte_isSome_iff rd k).2 fun j hj => by
    have := h j hj
    cases hr : rd (8 * k + j) <;> simp [hr] at this ⊢
  obtain ⟨w, hw⟩ := Option.isSome_iff_exists.1 hs
  rw [hw, Option.some.injEq]
  refine byte_eq_of_bits fun j hj => ?_
  have := getLsbD_unpackByte hw j hj
  rw [h j hj] at this
  simpa using this.symm

/-! ## The frame and its embedding -/

@[simp] theorem length_frame (magic : Magic) (m : List Byte) : (frame magic m).length = m.length + 4 := by
  simp [frame, Magic.bytes]

/-- `framebit` below `8 * |F|` (R91). -/
theorem framebit_of_lt {f : List Byte} {i : Nat} (h : i / 8 < f.length) :
    framebit f i = some (f[i / 8].getLsbD (7 - i % 8)) := by
  simp [framebit, h]

/-- `framebit` is not defined from `8 * |F|` on (R91). -/
theorem framebit_eq_none {f : List Byte} {i : Nat} (h : f.length ≤ i / 8) : framebit f i = none := by
  simp [framebit, h]

/-- `embedFrom` byte by byte (R95). -/
theorem getElem?_embedFrom (f s : List Byte) (i j : Nat) :
    (embedFrom f i s)[j]? = (s[j]?).map (embedByte f (i + j)) := by
  induction s generalizing i j with
  | nil => simp [embedFrom]
  | cons p s ih =>
    cases j with
    | zero => simp [embedFrom]
    | succ j => simp only [embedFrom, List.getElem?_cons_succ, ih]; rw [show i + 1 + j = i + (j + 1) by omega]

/-- `embed` byte by byte (R95). -/
theorem getElem?_embed (s f : List Byte) (j : Nat) : (embed s f)[j]? = (s[j]?).map (embedByte f j) := by
  simp [embed, getElem?_embedFrom]

@[simp] theorem length_embed (s f : List Byte) : (embed s f).length = s.length := by
  suffices ∀ i, (embedFrom f i s).length = s.length from this 0
  intro i
  induction s generalizing i with
  | nil => rfl
  | cons p s ih => simp [embedFrom, ih]

/-- Payload byte `k` of an embedded frame is frame byte `k` (R101). -/
theorem unpackByte_embed {s f : List Byte} {k : Nat} (hf : 8 * f.length ≤ s.length) (hk : k < f.length) :
    unpackByte (listReader (embed s f)) k = some f[k] := by
  refine unpackByte_eq_of_bits fun j hj => ?_
  have h1 : (8 * k + j) / 8 = k := by omega
  have h2 : (8 * k + j) % 8 = j := by omega
  have hlt : 8 * k + j < s.length := by omega
  simp only [listReader, getElem?_embed, List.getElem?_eq_getElem hlt, Option.map_some, embedByte]
  rw [framebit_of_lt (by omega)]
  simp [h1, h2]

/-- A payload byte past the frame is the source's (R101). -/
theorem unpackByte_embed_past {s f : List Byte} {k : Nat} (hk : f.length ≤ k) :
    unpackByte (listReader (embed s f)) k = unpackByte (listReader s) k := by
  refine unpackByte_congr fun j hj => ?_
  simp only [listReader, getElem?_embed]
  have : framebit f (8 * k + j) = none := framebit_eq_none (by omega)
  cases s[8 * k + j]? <;> simp [embedByte, this]

/-! ## The scan -/

/-- The scan over `g` groups from group `k` on, said whole (R98). -/
theorem scanGroups_eq_some_iff (rd : Reader) (g k : Nat) (r : Scan) :
    scanGroups rd g k = some r ↔
      (∀ j < r.bytes.length, unpackByte rd (k + j) = r.bytes[j]?) ∧ (∀ v ∈ r.bytes, v ≠ term) ∧
        if r.foundNul then r.bytes.length < g ∧ unpackByte rd (k + r.bytes.length) = some term
        else r.bytes.length = g := by
  induction g generalizing k r with
  | zero =>
    obtain ⟨bs, fn⟩ := r
    simp only [scanGroups, Option.some.injEq, Scan.mk.injEq]
    constructor
    · rintro ⟨rfl, rfl⟩; simp
    · rintro ⟨_, _, h⟩
      cases fn <;> simp at h
      exact ⟨h.symm, rfl⟩
  | succ g ih =>
    obtain ⟨bs, fn⟩ := r
    cases hv : unpackByte rd k with
    | none =>
      simp only [scanGroups, hv]
      constructor
      · intro h; cases h
      · rintro ⟨h1, _, h3⟩
        cases bs with
        | nil => cases fn <;> simp [hv] at h3
        | cons b bs => have := h1 0 (by simp); simp [hv] at this
    | some v =>
      simp only [scanGroups, hv]
      by_cases hz : v = term
      · rw [if_pos hz]
        simp only [Option.some.injEq, Scan.mk.injEq]
        constructor
        · rintro ⟨rfl, rfl⟩; simp [hv, hz]
        · rintro ⟨h1, h2, h3⟩
          cases bs with
          | nil => cases fn <;> simp at h3 ⊢
          | cons b bs =>
            have := h1 0 (by simp)
            simp [hv] at this
            exact absurd (this ▸ hz) (h2 b (by simp))
      · rw [if_neg hz, Option.map_eq_some_iff]
        constructor
        · rintro ⟨r', hr', h⟩
          cases h
          obtain ⟨h1, h2, h3⟩ := (ih _ _).1 hr'
          refine ⟨fun j hj => ?_, ?_, ?_⟩
          · cases j with
            | zero => simpa using hv
            | succ j => simpa [Nat.add_assoc, Nat.add_comm 1 j] using h1 j (by simpa using hj)
          · simpa [hz] using h2
          · cases hf : r'.foundNul <;> simp [hf] at h3 ⊢
            · exact h3
            · rwa [show k + (r'.bytes.length + 1) = k + 1 + r'.bytes.length by omega]
        · rintro ⟨h1, h2, h3⟩
          cases bs with
          | nil => cases fn <;> simp [hv, hz] at h3
          | cons b bs =>
            have hb := h1 0 (by simp)
            simp [hv] at hb
            subst hb
            refine ⟨⟨bs, fn⟩, (ih _ _).2 ⟨fun j hj => ?_, fun w hw => h2 w (by simp [hw]), ?_⟩, rfl⟩
            · have := h1 (j + 1) (by simpa using hj)
              simpa [Nat.add_assoc, Nat.add_comm 1 j] using this
            · cases fn <;> simp at h3 ⊢
              · exact h3
              · rwa [show k + 1 + bs.length = k + (bs.length + 1) by omega]

/-- `scan`, said whole (R98): the bytes before the first terminator among the whole groups, or all of them. -/
theorem scan_eq_some_iff (rd : Reader) (n : Nat) (r : Scan) :
    scan rd n = some r ↔
      (∀ j < r.bytes.length, unpackByte rd j = r.bytes[j]?) ∧ (∀ v ∈ r.bytes, v ≠ term) ∧
        if r.foundNul then r.bytes.length < n / 8 ∧ unpackByte rd r.bytes.length = some term
        else r.bytes.length = n / 8 := by
  simp [scan, scanGroups_eq_some_iff]

/-- The scan completes exactly when every group it reaches has a value (R169). -/
theorem scanGroups_isSome_iff (rd : Reader) (g k : Nat) :
    (scanGroups rd g k).isSome ↔
      ∀ l < g, (∀ j < l, unpackByte rd (k + j) ≠ some term) → (unpackByte rd (k + l)).isSome := by
  induction g generalizing k with
  | zero => simp [scanGroups]
  | succ g ih =>
    cases hv : unpackByte rd k with
    | none =>
      simp only [scanGroups, hv]
      constructor
      · intro h; cases h
      · intro h; have := h 0 (by omega) (by simp); simp [hv] at this
    | some v =>
      simp only [scanGroups, hv]
      by_cases hz : v = term
      · rw [if_pos hz]
        refine ⟨fun _ l hl h => ?_, fun _ => rfl⟩
        cases l with
        | zero => simp [hv]
        | succ l => exact absurd (by simp [hv, hz]) (h 0 (by omega))
      · rw [if_neg hz, Option.isSome_map, ih]
        constructor
        · intro h l hl h'
          cases l with
          | zero => simp [hv]
          | succ l =>
            have := h l (by omega) fun j hj => by
              have := h' (j + 1) (by omega)
              rwa [show k + (j + 1) = k + 1 + j by omega] at this
            rwa [show k + (l + 1) = k + 1 + l by omega]
        · intro h l hl h'
          have := h (l + 1) (by omega) fun j hj => by
            cases j with
            | zero => simp [hv, hz]
            | succ j =>
              have := h' j (by omega)
              rwa [show k + 1 + j = k + (j + 1) by omega] at this
          rwa [show k + (l + 1) = k + 1 + l by omega] at this

/-- The scan looks at the LSBs of whole groups only, and stops at the first terminator (R73, R98). -/
theorem scanGroups_congr {rd rd' : Reader} (g k : Nat)
    (h : ∀ l < g, (∀ j < l, unpackByte rd (k + j) ≠ some term) → unpackByte rd (k + l) = unpackByte rd' (k + l)) :
    scanGroups rd g k = scanGroups rd' g k := by
  induction g generalizing k with
  | zero => rfl
  | succ g ih =>
    have h0 : unpackByte rd k = unpackByte rd' k := by simpa using h 0 (by omega) (by simp)
    simp only [scanGroups, ← h0]
    cases hv : unpackByte rd k with
    | none => rfl
    | some v =>
      simp only
      by_cases hz : v = term
      · rw [if_pos hz, if_pos hz]
      · rw [if_neg hz, if_neg hz]
        refine congrArg _ (ih (k + 1) fun l hl h' => ?_)
        have := h (l + 1) (by omega) fun j hj => by
          cases j with
          | zero => simp [hv, hz]
          | succ j =>
            have := h' j (by omega)
            rwa [show k + 1 + j = k + (j + 1) by omega] at this
        rwa [show k + (l + 1) = k + 1 + l by omega] at this

/-! ## The detector and the validator -/

/-- The detector, said whole (R97). -/
theorem magicPresent_iff (rd : Reader) (n : Nat) (magic : Magic) :
    magicPresent rd n magic = true ↔
      24 ≤ n ∧ unpackByte rd 0 = some magic.b0 ∧ unpackByte rd 1 = some magic.b1 ∧ unpackByte rd 2 = some magic.b2 := by
  simp [magicPresent, and_assoc]

/-- The detector looks at the LSBs of the first 24 pixel bytes only (R97, R152). -/
theorem magicPresent_congr {rd rd' : Reader} (n : Nat) (magic : Magic)
    (h : 24 ≤ n → ∀ i < 24, (rd i).map lsbRead = (rd' i).map lsbRead) :
    magicPresent rd n magic = magicPresent rd' n magic := by
  by_cases hn : 24 ≤ n
  · have hk : ∀ k < 3, unpackByte rd k = unpackByte rd' k := fun k hk =>
      unpackByte_congr fun j hj => h hn _ (by omega)
    simp [magicPresent, hk 0, hk 1, hk 2]
  · simp [magicPresent, hn]

/-- The validator, said whole (R99). -/
theorem validate_iff (p : List Byte) (magic : Magic) :
    validate p magic = true ↔
      3 ≤ p.length ∧ p[0]? = some magic.b0 ∧ p[1]? = some magic.b1 ∧ p[2]? = some magic.b2 := by
  simp [validate, and_assoc]

/-! ## The shift register (R193, R195) -/

/-- One more shift takes the next pixel byte. -/
theorem shiftGroup_snoc (rd : Reader) (i len : Nat) (v : Byte) :
    shiftGroup rd i (len + 1) v = (shiftGroup rd i len v).bind fun w => (rd (i + len)).map (shiftIn w) := by
  induction len generalizing i v with
  | zero => simp [shiftGroup]; cases rd i <;> rfl
  | succ len ih =>
    rw [shiftGroup]
    cases h : rd i with
    | none => simp [shiftGroup, h]
    | some p =>
      have := ih (i + 1) (shiftIn v p)
      rw [show i + 1 + len = i + (len + 1) by omega] at this
      simpa only [shiftGroup, h] using this

/-- "After eight shifts the 8-bit `SHIFT` holds exactly the eight LSBs of the group" (R193), whatever it held before. -/
theorem unpackByte_of_shiftGroup {rd : Reader} {k : Nat} {v w : Byte} (h : shiftGroup rd (8 * k) 8 v = some w) :
    unpackByte rd k = some w := by
  have hs := (shiftGroup_isSome_iff rd (8 * k) 8 v).1 (by simp [h])
  have hp : ∀ j < 8, rd (8 * k + j) = some ((rd (8 * k + j)).getD 0) := fun j hj => by
    obtain ⟨p, hp⟩ := Option.isSome_iff_exists.1 (hs j hj); simp [hp]
  refine unpackByte_eq_of_bits fun j hj => ?_
  have := getLsbD_shiftGroup (p := fun j => (rd (8 * k + j)).getD 0) hp h (7 - j) (by omega)
  rw [if_pos (by omega), show 8 - 1 - (7 - j) = j by omega] at this
  rw [hp j hj]
  simp [this]

end Sys2Proof.Machine
end

