-- ==== Sys2Proof/Laws/State.lean ====
section
/-! SUPPORT. One lemma per field for each named update of the state, true by rfl, so that no later proof unfolds a
record update. -/

namespace Sys2Proof.Machine

/-! ### `finish`: `finish` writes `STATUS` and `PHASE` only (R156). -/

@[simp] theorem finish_cmd (s : State) (i : Instr) (e : Option ErrKind) : (s.finish i e).cmd = s.cmd := rfl
@[simp] theorem finish_status (s : State) (i : Instr) (e : Option ErrKind) : (s.finish i e).status = statusByte .done e i := rfl
@[simp] theorem finish_n (s : State) (i : Instr) (e : Option ErrKind) : (s.finish i e).n = s.n := rfl
@[simp] theorem finish_msgLen (s : State) (i : Instr) (e : Option ErrKind) : (s.finish i e).msgLen = s.msgLen := rfl
@[simp] theorem finish_outLen (s : State) (i : Instr) (e : Option ErrKind) : (s.finish i e).outLen = s.outLen := rfl
@[simp] theorem finish_magic (s : State) (i : Instr) (e : Option ErrKind) : (s.finish i e).magic = s.magic := rfl
@[simp] theorem finish_phase (s : State) (i : Instr) (e : Option ErrKind) : (s.finish i e).phase = .done := rfl
@[simp] theorem finish_idx (s : State) (i : Instr) (e : Option ErrKind) : (s.finish i e).idx = s.idx := rfl
@[simp] theorem finish_shift (s : State) (i : Instr) (e : Option ErrKind) : (s.finish i e).shift = s.shift := rfl
@[simp] theorem finish_flen (s : State) (i : Instr) (e : Option ErrKind) : (s.finish i e).flen = s.flen := rfl
@[simp] theorem finish_accLen (s : State) (i : Instr) (e : Option ErrKind) : (s.finish i e).accLen = s.accLen := rfl
@[simp] theorem finish_foundNul (s : State) (i : Instr) (e : Option ErrKind) : (s.finish i e).foundNul = s.foundNul := rfl
@[simp] theorem finish_matched (s : State) (i : Instr) (e : Option ErrKind) : (s.finish i e).matched = s.matched := rfl
@[simp] theorem finish_src (s : State) (i : Instr) (e : Option ErrKind) : (s.finish i e).src = s.src := rfl
@[simp] theorem finish_dst (s : State) (i : Instr) (e : Option ErrKind) : (s.finish i e).dst = s.dst := rfl
@[simp] theorem finish_min (s : State) (i : Instr) (e : Option ErrKind) : (s.finish i e).min = s.min := rfl
@[simp] theorem finish_mout (s : State) (i : Instr) (e : Option ErrKind) : (s.finish i e).mout = s.mout := rfl
@[simp] theorem finish_acc (s : State) (i : Instr) (e : Option ErrKind) : (s.finish i e).acc = s.acc := rfl
@[simp] theorem finish_caps (s : State) (i : Instr) (e : Option ErrKind) : (s.finish i e).caps = s.caps := rfl
@[simp] theorem finish_inbox (s : State) (i : Instr) (e : Option ErrKind) : (s.finish i e).inbox = s.inbox := rfl
@[simp] theorem finish_hostRead (s : State) (i : Instr) (e : Option ErrKind) : (s.finish i e).hostRead = s.hostRead := rfl

/-! ### `decoded`: `decoded` writes `ACC`, `ACC_LEN` and `FOUND_NUL` only (R130). -/

@[simp] theorem decoded_cmd (s : State) (r : Scan) : (s.decoded r).cmd = s.cmd := rfl
@[simp] theorem decoded_status (s : State) (r : Scan) : (s.decoded r).status = s.status := rfl
@[simp] theorem decoded_n (s : State) (r : Scan) : (s.decoded r).n = s.n := rfl
@[simp] theorem decoded_msgLen (s : State) (r : Scan) : (s.decoded r).msgLen = s.msgLen := rfl
@[simp] theorem decoded_outLen (s : State) (r : Scan) : (s.decoded r).outLen = s.outLen := rfl
@[simp] theorem decoded_magic (s : State) (r : Scan) : (s.decoded r).magic = s.magic := rfl
@[simp] theorem decoded_phase (s : State) (r : Scan) : (s.decoded r).phase = s.phase := rfl
@[simp] theorem decoded_idx (s : State) (r : Scan) : (s.decoded r).idx = s.idx := rfl
@[simp] theorem decoded_shift (s : State) (r : Scan) : (s.decoded r).shift = s.shift := rfl
@[simp] theorem decoded_flen (s : State) (r : Scan) : (s.decoded r).flen = s.flen := rfl
@[simp] theorem decoded_accLen (s : State) (r : Scan) : (s.decoded r).accLen = r.bytes.length := rfl
@[simp] theorem decoded_foundNul (s : State) (r : Scan) : (s.decoded r).foundNul = r.foundNul := rfl
@[simp] theorem decoded_matched (s : State) (r : Scan) : (s.decoded r).matched = s.matched := rfl
@[simp] theorem decoded_src (s : State) (r : Scan) : (s.decoded r).src = s.src := rfl
@[simp] theorem decoded_dst (s : State) (r : Scan) : (s.decoded r).dst = s.dst := rfl
@[simp] theorem decoded_min (s : State) (r : Scan) : (s.decoded r).min = s.min := rfl
@[simp] theorem decoded_mout (s : State) (r : Scan) : (s.decoded r).mout = s.mout := rfl
@[simp] theorem decoded_acc (s : State) (r : Scan) : (s.decoded r).acc = s.acc.writeBytes 0 r.bytes := rfl
@[simp] theorem decoded_caps (s : State) (r : Scan) : (s.decoded r).caps = s.caps := rfl
@[simp] theorem decoded_inbox (s : State) (r : Scan) : (s.decoded r).inbox = s.inbox := rfl
@[simp] theorem decoded_hostRead (s : State) (r : Scan) : (s.decoded r).hostRead = s.hostRead := rfl

/-! ### `started`: `started` writes `STATUS` and the working registers only (R191); `PHASE` after the table. -/

@[simp] theorem started_cmd (s : State) (i : Instr) : (s.started i).cmd = s.cmd := rfl
@[simp] theorem started_status (s : State) (i : Instr) : (s.started i).status = statusByte .busy none i := rfl
@[simp] theorem started_n (s : State) (i : Instr) : (s.started i).n = s.n := rfl
@[simp] theorem started_msgLen (s : State) (i : Instr) : (s.started i).msgLen = s.msgLen := rfl
@[simp] theorem started_outLen (s : State) (i : Instr) : (s.started i).outLen = s.outLen := rfl
@[simp] theorem started_magic (s : State) (i : Instr) : (s.started i).magic = s.magic := rfl
@[simp] theorem started_idx (s : State) (i : Instr) : (s.started i).idx = 0 := rfl
@[simp] theorem started_shift (s : State) (i : Instr) : (s.started i).shift = 0x00 := rfl
@[simp] theorem started_flen (s : State) (i : Instr) : (s.started i).flen = s.flen := rfl
@[simp] theorem started_accLen (s : State) (i : Instr) : (s.started i).accLen = 0 := rfl
@[simp] theorem started_foundNul (s : State) (i : Instr) : (s.started i).foundNul = false := rfl
@[simp] theorem started_matched (s : State) (i : Instr) : (s.started i).matched = true := rfl
@[simp] theorem started_src (s : State) (i : Instr) : (s.started i).src = s.src := rfl
@[simp] theorem started_dst (s : State) (i : Instr) : (s.started i).dst = s.dst := rfl
@[simp] theorem started_min (s : State) (i : Instr) : (s.started i).min = s.min := rfl
@[simp] theorem started_mout (s : State) (i : Instr) : (s.started i).mout = s.mout := rfl
@[simp] theorem started_acc (s : State) (i : Instr) : (s.started i).acc = s.acc := rfl
@[simp] theorem started_caps (s : State) (i : Instr) : (s.started i).caps = s.caps := rfl
@[simp] theorem started_inbox (s : State) (i : Instr) : (s.started i).inbox = s.inbox := rfl
@[simp] theorem started_hostRead (s : State) (i : Instr) : (s.started i).hostRead = s.hostRead := rfl

/-! ### `applyReset`: `applyReset` keeps the parameters and the host's fields; every other field is its reset value (R38, R180). -/

@[simp] theorem applyReset_cmd (s : State) : (s.applyReset).cmd = 0 := rfl
@[simp] theorem applyReset_status (s : State) : (s.applyReset).status = 0x00 := rfl
@[simp] theorem applyReset_n (s : State) : (s.applyReset).n = 0 := rfl
@[simp] theorem applyReset_msgLen (s : State) : (s.applyReset).msgLen = 0 := rfl
@[simp] theorem applyReset_outLen (s : State) : (s.applyReset).outLen = 0 := rfl
@[simp] theorem applyReset_magic (s : State) : (s.applyReset).magic = ⟨0x73, 0x74, 0x67⟩ := rfl
@[simp] theorem applyReset_phase (s : State) : (s.applyReset).phase = .idle := rfl
@[simp] theorem applyReset_idx (s : State) : (s.applyReset).idx = 0 := rfl
@[simp] theorem applyReset_shift (s : State) : (s.applyReset).shift = 0 := rfl
@[simp] theorem applyReset_flen (s : State) : (s.applyReset).flen = 0 := rfl
@[simp] theorem applyReset_accLen (s : State) : (s.applyReset).accLen = 0 := rfl
@[simp] theorem applyReset_foundNul (s : State) : (s.applyReset).foundNul = false := rfl
@[simp] theorem applyReset_matched (s : State) : (s.applyReset).matched = false := rfl
@[simp] theorem applyReset_src (s : State) : (s.applyReset).src = [] := rfl
@[simp] theorem applyReset_dst (s : State) : (s.applyReset).dst = [] := rfl
@[simp] theorem applyReset_min (s : State) : (s.applyReset).min = [] := rfl
@[simp] theorem applyReset_mout (s : State) : (s.applyReset).mout = [] := rfl
@[simp] theorem applyReset_acc (s : State) : (s.applyReset).acc = [] := rfl
@[simp] theorem applyReset_caps (s : State) : (s.applyReset).caps = s.caps := rfl
@[simp] theorem applyReset_inbox (s : State) : (s.applyReset).inbox = s.inbox := rfl
@[simp] theorem applyReset_hostRead (s : State) : (s.applyReset).hostRead = s.hostRead := rfl

@[simp] theorem started_phase_hide (s : State) : (s.started .hide).phase = .checkCapacity := rfl
@[simp] theorem started_phase_unhide (s : State) : (s.started .unhide).phase = .streamBits := rfl

/-- `raise` is `finish` with the kind (R156). -/
@[simp] theorem raise_eq_finish (s : State) (i : Instr) (e : ErrKind) : s.raise i e = s.finish i (some e) := rfl

/-- An error of UNHIDE writes `OUT_LEN`, `STATUS` and `PHASE` only (R137). -/
@[simp] theorem unhideError_eq (s : State) (e : ErrKind) :
    s.unhideError e = { s with outLen := 0 }.finish .unhide (some e) := rfl

/-- The host-visible buffers of a state (R32). -/
@[simp] theorem buffer_src (s : State) : s.buffer .src = s.src := rfl
@[simp] theorem buffer_dst (s : State) : s.buffer .dst = s.dst := rfl
@[simp] theorem buffer_min (s : State) : s.buffer .min = s.min := rfl
@[simp] theorem buffer_mout (s : State) : s.buffer .mout = s.mout := rfl

/-- The values `STATUS` is given at the end of a command and at START (R27). -/
theorem status_values :
    statusByte .done none .hide = 0x22 ∧ statusByte .done (some .tooBig) .hide = 0x26 ∧
      statusByte .done (some .msg) .hide = 0x2A ∧ statusByte .done none .unhide = 0x42 ∧
      statusByte .done (some .noMsg) .unhide = 0x4E ∧ statusByte .done (some .badMsg) .unhide = 0x52 ∧
      statusByte .busy none .hide = 0x21 ∧ statusByte .busy none .unhide = 0x41 := by decide

/-- `STATUS.STATE` of a composed byte (R27). -/
@[simp] theorem statusState_statusByte (st : RunState) (e : Option ErrKind) (i : Instr) :
    statusState (statusByte st e i) = BitVec.ofNat 2 (runStateCode st) := by
  cases st <;> cases i <;> rcases e with _ | e <;> first | rfl | (cases e <;> rfl)

/-- `STATUS.ERR` of a composed byte (R27). -/
@[simp] theorem statusErr_statusByte (st : RunState) (e : Option ErrKind) (i : Instr) :
    statusErr (statusByte st e i) = BitVec.ofNat 3 (errCode e) := by
  cases st <;> cases i <;> rcases e with _ | e <;> first | rfl | (cases e <;> rfl)

/-- `STATUS.OP` of a composed byte (R27). -/
@[simp] theorem statusOp_statusByte (st : RunState) (e : Option ErrKind) (i : Instr) :
    statusOp (statusByte st e i) = BitVec.ofNat 2 (opCode i) := by
  cases st <;> cases i <;> rcases e with _ | e <;> first | rfl | (cases e <;> rfl)

/-- After a command the host may act again (R158). -/
@[simp] theorem resting_finish (s : State) (i : Instr) (e : Option ErrKind) : (s.finish i e).resting = true := by
  simp [State.resting, runStateCode]

/-- While a command runs at the step level the host may not act (R40, R191). -/
@[simp] theorem resting_started (s : State) (i : Instr) : (s.started i).resting = false := by
  simp [State.resting, runStateCode]

end Sys2Proof.Machine
end

