-- ==== Sys2Proof/Laws/Exec.lean ====
section
/-! SUPPORT. What each command can do, said once: when it is admitted, and which of its outcomes it gives. -/

namespace Sys2Proof.Machine

/-- The register part of admission (R169). -/
theorem startRefusal_hide_eq_none_iff (s : State) :
    s.startRefusal .hide = none ↔ StartOk s ∧ capAllows s.caps.lmax s.msgLen = true := by
  unfold State.startRefusal StartOk
  cases s.resting <;> cases capAllows s.caps.nmax s.n <;> cases capAllows s.caps.lmax s.msgLen <;> simp

/-- The register part of admission (R169); UNHIDE does not read `MSG_LEN`. -/
theorem startRefusal_unhide_eq_none_iff (s : State) : s.startRefusal .unhide = none ↔ StartOk s := by
  unfold State.startRefusal StartOk
  cases s.resting <;> cases capAllows s.caps.nmax s.n <;> simp

/-- The message, as bytes of `MIN` (R81). -/
theorem message_eq_some_iff (s : State) (msg : List Byte) :
    s.message = some msg ↔ msg.length = s.msgLen ∧ ∀ j < s.msgLen, s.min.read j = msg[j]? := by
  simp [State.message, readBytes_eq_some_iff]

/-- The pixels, as bytes of `SRC` (R81). -/
theorem pixels_eq_some_iff (s : State) (px : List Byte) :
    s.pixels = some px ↔ px.length = s.n ∧ ∀ j < s.n, s.src.read j = px[j]? := by
  simp [State.pixels, readBytes_eq_some_iff]

/-- On a buffer of `N` pixel bytes the detector gives the same on the list read out and on `SRC` itself. -/
theorem magicPresent_pixels {s : State} {px : List Byte} (h : s.pixels = some px) :
    magicPresent (listReader px) s.n s.magic = magicPresent s.pixelReader s.n s.magic := by
  obtain ⟨_, hr⟩ := (pixels_eq_some_iff s px).1 h
  refine magicPresent_congr _ _ fun hn i hi => ?_
  simp [listReader, State.pixelReader, hr i (by omega)]

/-- The three outcomes of HIDE (R110): too big, already hidden, embedded. -/
inductive HideOutcome (s t : State) : Prop where
  /-- `STEG_TOO_BIG` (R113). -/
  | tooBig (msg : List Byte) (hm : s.message = some msg) (hc : s.n < 8 * (s.msgLen + 4))
      (ht : t = s.finish .hide (some .tooBig))
  /-- `STEG_MSG` (R114). -/
  | marked (msg px : List Byte) (hm : s.message = some msg) (hc : 8 * (s.msgLen + 4) ≤ s.n) (hp : s.pixels = some px)
      (hd : magicPresent s.pixelReader s.n s.magic = true) (ht : t = s.finish .hide (some .msg))
  /-- OK (R115). -/
  | embedded (msg px : List Byte) (hm : s.message = some msg) (hc : 8 * (s.msgLen + 4) ≤ s.n) (hp : s.pixels = some px)
      (hd : magicPresent s.pixelReader s.n s.magic = false)
      (ht : t = { s with dst := s.dst.writeBytes 0 (embed px (frame s.magic msg)) }.finish .hide none)

/-- HIDE answers a next state exactly when its registers admit it and one of its outcomes holds (R110, R169). -/
theorem exec_hide_eq_next_iff (s t : State) :
    exec .hide s = .next t ↔ (StartOk s ∧ capAllows s.caps.lmax s.msgLen = true) ∧ HideOutcome s t := by
  rw [← startRefusal_hide_eq_none_iff]
  show execHide s = .next t ↔ _
  unfold execHide
  cases hr : s.startRefusal .hide with
  | some r => simp
  | none =>
    cases hm : s.message with
    | none =>
      simp only [true_and]
      constructor
      · intro h; cases h
      · rintro (⟨_, hm', _⟩ | ⟨_, _, hm', _⟩ | ⟨_, _, hm', _⟩) <;> simp [hm] at hm'
    | some msg =>
      simp only [true_and]
      by_cases hc : 8 * (s.msgLen + 4) ≤ s.n
      · simp only [capacityOk, hc, decide_true, Bool.not_true, Bool.false_eq_true, if_false]
        cases hp : s.pixels with
        | none =>
          simp only
          constructor
          · intro h; cases h
          · rintro (⟨_, _, hc', _⟩ | ⟨_, _, _, _, hp', _⟩ | ⟨_, _, _, _, hp', _⟩)
            · omega
            · simp [hp] at hp'
            · simp [hp] at hp'
        | some px =>
          simp only [magicPresent_pixels hp]
          cases hd : magicPresent s.pixelReader s.n s.magic with
          | true =>
            constructor
            · intro h; cases h; exact .marked msg px hm hc hp hd rfl
            · rintro (⟨_, _, hc', _⟩ | ⟨_, _, _, _, _, _, rfl⟩ | ⟨_, _, _, _, _, hd', _⟩)
              · omega
              · rfl
              · simp [hd] at hd'
          | false =>
            constructor
            · intro h; cases h; exact .embedded msg px hm hc hp hd rfl
            · rintro (⟨_, _, hc', _⟩ | ⟨_, _, _, _, _, hd', _⟩ | ⟨_, _, hm', _, hp', _, rfl⟩)
              · omega
              · simp [hd] at hd'
              · rw [hm] at hm'; rw [hp] at hp'; cases hm'; cases hp'; rfl
      · simp only [capacityOk, hc, decide_false, Bool.not_false, if_true]
        constructor
        · intro h; cases h; exact .tooBig msg hm (by omega) rfl
        · rintro (⟨_, _, _, rfl⟩ | ⟨_, _, _, hc', _⟩ | ⟨_, _, _, hc', _⟩)
          · rfl
          · exact absurd hc' hc
          · exact absurd hc' hc

/-- The three outcomes of UNHIDE (R130), after a scan that gave `r`. -/
inductive UnhideOutcome (s t : State) (r : Scan) : Prop where
  /-- `STEG_BAD_MSG` (R133). -/
  | badMsg (hf : r.foundNul = false)
      (ht : t = { s.decoded r with outLen := 0 }.finish .unhide (some .badMsg))
  /-- `STEG_NO_MSG` (R134). -/
  | noMsg (hf : r.foundNul = true) (hv : validate r.bytes s.magic = false)
      (ht : t = { s.decoded r with outLen := 0 }.finish .unhide (some .noMsg))
  /-- OK (R135). -/
  | message (hf : r.foundNul = true) (hv : validate r.bytes s.magic = true)
      (ht : t = { s.decoded r with
        mout := s.mout.writeBytes 0 (r.bytes.drop 3), outLen := r.bytes.length - 3 }.finish .unhide none)

/-- UNHIDE answers a next state exactly when its registers admit it, its scan completes and one of its outcomes holds
(R130, R169). -/
theorem exec_unhide_eq_next_iff (s t : State) :
    exec .unhide s = .next t ↔ StartOk s ∧ ∃ r, scan s.pixelReader s.n = some r ∧ UnhideOutcome s t r := by
  rw [← startRefusal_unhide_eq_none_iff]
  show execUnhide s = .next t ↔ _
  unfold execUnhide
  cases hr : s.startRefusal .unhide with
  | some r => simp
  | none =>
    cases hs : scan s.pixelReader s.n with
    | none => simp
    | some r =>
      simp only [true_and, Option.some.injEq, exists_eq_left']
      cases hf : r.foundNul with
      | false =>
        constructor
        · intro h; cases h; exact .badMsg hf rfl
        · rintro (⟨_, rfl⟩ | ⟨hf', _⟩ | ⟨hf', _⟩)
          · rfl
          · simp [hf] at hf'
          · simp [hf] at hf'
      | true =>
        simp only [Bool.not_true, Bool.false_eq_true, if_false]
        cases hv : validate r.bytes s.magic with
        | false =>
          constructor
          · intro h; cases h; exact .noMsg hf hv rfl
          · rintro (⟨hf', _⟩ | ⟨_, _, rfl⟩ | ⟨_, hv', _⟩)
            · simp [hf] at hf'
            · rfl
            · simp [hv] at hv'
        | true =>
          constructor
          · intro h; cases h; exact .message hf hv rfl
          · rintro (⟨hf', _⟩ | ⟨_, hv', _⟩ | ⟨_, _, rfl⟩)
            · simp [hf] at hf'
            · simp [hv] at hv'
            · rfl

/-- No command faults (R9). -/
theorem exec_ne_fault (i : Instr) (s : State) (f : Fault) : exec i s ≠ .fault f := by
  cases i
  · show execHide s ≠ _
    unfold execHide
    repeat' split
    all_goals simp
  · show execUnhide s ≠ _
    unfold execUnhide
    repeat' split
    all_goals simp

/-- The frame byte produced on demand is the byte of the frame (R194, R90). -/
theorem frameByte_eq {s : State} {msg : List Byte} (hm : s.message = some msg) (hf : s.flen = s.msgLen + 4) {k : Nat}
    (hk : k < s.flen) : ∃ v, s.frameByte k = .byte v ∧ (frame s.magic msg)[k]? = some v := by
  obtain ⟨hl, hr⟩ := (message_eq_some_iff s msg).1 hm
  have hb : s.magic.bytes.length = 3 := rfl
  unfold State.frameByte frame
  by_cases h3 : k < 3
  · rw [if_pos h3]
    rcases (by omega : k = 0 ∨ k = 1 ∨ k = 2) with h | h | h <;> subst h <;> exact ⟨_, rfl, rfl⟩
  · rw [if_neg h3]
    by_cases h4 : k + 1 < s.flen
    · rw [if_pos h4]
      have hlt : k - 3 < msg.length := by omega
      refine ⟨msg[k - 3], by rw [hr (k - 3) (by omega), List.getElem?_eq_getElem hlt], ?_⟩
      rw [List.getElem?_append_left (by simp; omega), List.getElem?_append_right (by omega), hb,
        List.getElem?_eq_getElem hlt]
    · rw [if_neg h4, if_pos (by omega)]
      refine ⟨_, rfl, ?_⟩
      rw [List.getElem?_append_right (by simp; omega), show k - (s.magic.bytes ++ msg).length = 0 by simp; omega]
      rfl

end Sys2Proof.Machine
end

