-- ==== Sys2Proof/Laws/PerInstr.lean ====
section
/-! SUPPORT. What holds of every command as syntax: it is well formed, and exactly one row of the opcode table, its own,
accepts its word. -/

namespace Sys2Proof.Laws

/-- The command is well formed, its word is accepted by a row of R76's table that names it, and by no other row. -/
def OwnRow.Statement (i : Instr) : Prop :=
  i.wellFormed = true ∧ ∃ r ∈ opcodeTable, r.instr = i ∧ r.accepts (encode i) = true ∧
    ∀ r' ∈ opcodeTable, r'.accepts (encode i) = true → r' = r

theorem OwnRow.hide : OwnRow.Statement .hide := by
  unfold OwnRow.Statement; decide

theorem OwnRow.unhide : OwnRow.Statement .unhide := by
  unfold OwnRow.Statement; decide

end Sys2Proof.Laws
end

