-- ==== Sys2Proof/Laws/Step.lean ====
section
/-! SUPPORT. What one move of the engine, one move of the host, and one step of the machine can do, each said once. -/

namespace Sys2Proof.Machine

/-- What one move of the engine can do (R190 to R196). -/
inductive EngineEffect (s t : State) : Prop where
  /-- `IDLE` and `DONE`: it waits (R166). -/
  | waits (hp : s.phase = .idle ∨ s.phase = .done) (ht : t = s)
  /-- `CHECK_CAPACITY` to `DONE` (R192). -/
  | tooBig (hp : s.phase = .checkCapacity) (hc : s.n < 8 * (s.msgLen + 4))
      (ht : t = { s with flen := s.msgLen + 4 }.finish .hide (some .tooBig))
  /-- `CHECK_CAPACITY` to `CHECK_MAGIC` (R192). -/
  | fits (hp : s.phase = .checkCapacity) (hc : 8 * (s.msgLen + 4) ≤ s.n)
      (ht : t = { s with flen := s.msgLen + 4, phase := .checkMagic })
  /-- `CHECK_MAGIC` goes on (R193). -/
  | probes (hp : s.phase = .checkMagic) (p b : Byte) (hr : s.src.read s.idx = some p)
      (hb : s.magic.byteAt (s.idx / 8) = some b) (hi : s.idx + 1 ≠ 24) (ht : t = s.probed p b)
  /-- `CHECK_MAGIC` to `DONE` (R193). -/
  | marked (hp : s.phase = .checkMagic) (p b : Byte) (hr : s.src.read s.idx = some p)
      (hb : s.magic.byteAt (s.idx / 8) = some b) (hi : s.idx + 1 = 24) (hm : (s.probed p b).matched = true)
      (ht : t = (s.probed p b).finish .hide (some .msg))
  /-- `CHECK_MAGIC` to `STREAM_BITS` (R193). -/
  | unmarked (hp : s.phase = .checkMagic) (p b : Byte) (hr : s.src.read s.idx = some p)
      (hb : s.magic.byteAt (s.idx / 8) = some b) (hi : s.idx + 1 = 24) (hm : (s.probed p b).matched = false)
      (ht : t = { s.probed p b with phase := .streamBits, idx := 0 })
  /-- HIDE's `STREAM_BITS` goes on (R194). -/
  | writes (hp : s.phase = .streamBits) (ho : statusOp s.status = 1) (p d : Byte) (hr : s.src.read s.idx = some p)
      (hd : s.hideOutput p = .byte d) (hi : s.idx + 1 ≠ s.n)
      (ht : t = { s with dst := s.dst.write s.idx d, idx := s.idx + 1 })
  /-- HIDE's `STREAM_BITS` to `DONE` (R194). -/
  | writesLast (hp : s.phase = .streamBits) (ho : statusOp s.status = 1) (p d : Byte) (hr : s.src.read s.idx = some p)
      (hd : s.hideOutput p = .byte d) (hi : s.idx + 1 = s.n)
      (ht : t = { s with dst := s.dst.write s.idx d, idx := s.idx + 1 }.finish .hide none)
  /-- UNHIDE's `STREAM_BITS` to `DONE`, `EXHAUST` (R195). -/
  | exhausts (hp : s.phase = .streamBits) (ho : statusOp s.status = 2) (hi : s.idx % 8 = 0) (hn : s.n - s.idx < 8)
      (ht : t = { s with outLen := 0 }.finish .unhide (some .badMsg))
  /-- UNHIDE's `STREAM_BITS` takes a pixel byte (R195). -/
  | shifts (hp : s.phase = .streamBits) (ho : statusOp s.status = 2) (p : Byte) (hi : s.idx % 8 = 0 → 8 ≤ s.n - s.idx)
      (hr : s.src.read s.idx = some p) (ht : t = s.shifted p)
  /-- `VALIDATE` to `DONE` with an error (R196). -/
  | rejects (hp : s.phase = .validate) (hk : s.accLen < 3 ∨ s.matched = false)
      (ht : t = { s with outLen := 0 }.finish .unhide (some .noMsg))
  /-- `VALIDATE` to `DONE` (R196). -/
  | delivers (hp : s.phase = .validate) (hk : 3 ≤ s.accLen) (hm : s.matched = true) (out : List Byte)
      (hr : s.acc.readBytes 3 (s.accLen - 3) = some out)
      (ht : t = { s with mout := s.mout.writeBytes 0 out, outLen := s.accLen - 3 }.finish .unhide none)

/-- Every move of the engine is one of these. -/
theorem engineStep_eq_next {s t : State} (h : engineStep s = .next t) : EngineEffect s t := by
  unfold engineStep at h
  split at h
  · rename_i hp; cases h; exact .waits (.inl hp) rfl
  · rename_i hp
    simp only [checkCapacityStep] at h
    split at h
    · rename_i hc; cases h; exact .tooBig hp hc rfl
    · rename_i hc; cases h; exact .fits hp (by omega) rfl
  · rename_i hp
    simp only [checkMagicStep] at h
    split at h
    · cases h
    · rename_i p hr
      split at h
      · cases h
      · rename_i b hb
        split at h
        · rename_i hi
          split at h
          · rename_i hm; cases h; exact .marked hp p b hr hb hi hm rfl
          · rename_i hm; cases h; exact .unmarked hp p b hr hb hi (by simpa [State.probed] using hm) rfl
        · rename_i hi; cases h; exact .probes hp p b hr hb hi rfl
  · rename_i hp
    split at h
    · rename_i ho
      simp only [hideStreamStep] at h
      split at h
      · cases h
      · rename_i p hr
        split at h
        · cases h
        · cases h
        · rename_i d hd
          split at h
          · rename_i hi; cases h; exact .writesLast hp ho p d hr hd hi rfl
          · rename_i hi; cases h; exact .writes hp ho p d hr hd hi rfl
    · split at h
      · rename_i ho
        simp only [unhideStreamStep] at h
        split at h
        · rename_i hi; cases h; exact .exhausts hp ho hi.1 hi.2 rfl
        · rename_i hi
          split at h
          · cases h
          · rename_i p hr
            cases h
            exact .shifts hp ho p (fun h0 => by omega) hr rfl
      · cases h
  · rename_i hp
    simp only [validateStep] at h
    split at h
    · rename_i hk; cases h; exact .rejects hp hk rfl
    · rename_i hk
      split at h
      · cases h
      · rename_i out hr
        cases h
        exact .delivers hp (by omega) (by cases hm : s.matched <;> simp_all) out hr rfl
  · rename_i hp; cases h; exact .waits (.inr hp) rfl

/-- What one move of the host can do (R25, R32, R40, R180). -/
inductive HostEffect (s t : State) : Prop where
  /-- Reset (R180). -/
  | resets (ht : t = s.applyReset)
  /-- A read returns a value (R25, R32). -/
  | reads (v : Nat) (ht : t = { s with hostRead := some v })
  /-- A write that is ignored, or a wait that is over (R25, R83). -/
  | nothing (ht : t = s)
  /-- `CMD` is written with an admitted command (R26, R169). -/
  | asks (hs : s.resting = true) (c : Byte) (i : Instr) (u : State) (hd : decode c = .ok i) (he : exec i s = .next u)
      (ht : t = { s with cmd := c })
  /-- `N` is written (R28). -/
  | setsN (hs : s.resting = true) (v : Nat) (ht : t = { s with n := v })
  /-- `MSG_LEN` is written (R29). -/
  | setsMsgLen (hs : s.resting = true) (v : Nat) (ht : t = { s with msgLen := v })
  /-- A token register is written (R31). -/
  | setsMagic (hs : s.resting = true) (m : Magic) (ht : t = { s with magic := m })
  /-- A byte of `SRC` is written (R32). -/
  | setsSrc (hs : s.resting = true) (i : Nat) (v : Byte) (hc : capAllows s.caps.nmax (i + 1) = true)
      (ht : t = { s with src := s.src.write i v })
  /-- A byte of `MIN` is written (R32). -/
  | setsMin (hs : s.resting = true) (i : Nat) (v : Byte) (hc : capAllows s.caps.lmax (i + 1) = true)
      (ht : t = { s with min := s.min.write i v })
  /-- `DST[0..N)` is copied to `SRC[0..N)` (R189). -/
  | copies (hs : s.resting = true) (hc : capAllows s.caps.nmax s.n = true) (bs : List Byte)
      (hb : s.dst.readBytes 0 s.n = some bs) (ht : t = { s with src := s.src.writeBytes 0 bs })

/-- A token write changes the token only (R31). -/
theorem setMagic_eq_some {s t : State} {no : Nat} {b : Byte} (h : s.setMagic no b = some t) :
    ∃ m, t = { s with magic := m } := by
  unfold State.setMagic at h
  split at h <;> first | cases h; exact ⟨_, rfl⟩ | cases h

/-- Every move of the host is one of these. -/
theorem hostMove_eq_next {m : HostMove} {s t : State} (h : hostMove m s = .next t) : HostEffect s t := by
  cases m with
  | reset => cases h; exact .resets rfl
  | wait => cases h; exact .nothing rfl
  | readReg no =>
    simp only [hostMove, hostReadReg] at h
    split at h
    · cases h
    · split at h
      · cases h; exact .reads _ rfl
      · cases h
  | readBuf sp i =>
    simp only [hostMove, hostReadBuf] at h
    split at h
    · cases h
    · split at h
      · cases h
      · split at h
        · cases h; exact .reads _ rfl
        · cases h
  | writeBuf sp i v =>
    simp only [hostMove, hostWriteBuf] at h
    split at h
    · cases h
    · rename_i hs
      split at h
      · cases h
      · rename_i hc
        cases sp <;> simp only at h <;> cases h
        · exact .setsSrc (by simpa using hs) i v (by simpa [capacity] using hc) rfl
        · exact .setsMin (by simpa using hs) i v (by simpa [capacity] using hc) rfl
  | copyBack =>
    simp only [hostMove, hostCopyBack] at h
    split at h
    · cases h
    · rename_i hs
      split at h
      · cases h
      · rename_i hc
        split at h
        · rename_i bs hb; cases h; exact .copies (by simpa using hs) (by simpa using hc) bs hb rfl
        · cases h
  | writeReg no v =>
    simp only [hostMove, hostWriteReg] at h
    split at h
    · cases h
    · rename_i hs
      have hs : s.resting = true := by simpa using hs
      split at h
      · simp only [hostWriteCmd] at h
        split at h
        · split at h
          · cases h
          · rename_i i hd
            split at h
            · rename_i u he; cases h; exact .asks hs _ i u hd he rfl
            · cases h
            · cases h
        · cases h
      · cases h; exact .nothing rfl
      · cases h; exact .setsN hs v rfl
      · cases h; exact .setsMsgLen hs v rfl
      · cases h; exact .nothing rfl
      · simp only [hostWriteMagic] at h
        split at h
        · cases h
        · rename_i u hu
          split at h
          · cases h
            obtain ⟨m, rfl⟩ := setMagic_eq_some hu
            exact .setsMagic hs m rfl
          · cases h

/-- One step of the machine: a pending command is taken, or the engine moves, or the host makes its next move. -/
theorem advance_eq_next {accept : Instr → State → Result} {s t : State} (h : advance accept s = .next t) :
    (∃ i, decode s.cmd = .ok i ∧ accept i { s with cmd := 0 } = .next t) ∨
      (s.cmd = 0 ∧ engineStep s = .next t) ∨
      (s.cmd = 0 ∧ ∃ m rest, s.inbox = m :: rest ∧ HostEffect { s with inbox := rest } t) := by
  unfold advance at h
  split at h
  · rename_i hc
    unfold hostTurn at h
    split at h
    · exact .inr (.inl ⟨hc, h⟩)
    · rename_i m rest hi
      split at h
      · exact .inr (.inl ⟨hc, h⟩)
      · exact .inr (.inr ⟨hc, m, rest, hi, hostMove_eq_next h⟩)
  · unfold takeCommand at h
    split at h
    · cases h
    · rename_i i hd; exact .inl ⟨i, hd, h⟩

/-- A START that is taken writes what R191 says, and the command was admitted. -/
theorem startCommand_eq_next {i : Instr} {s t : State} (h : startCommand i s = .next t) :
    t = s.started i ∧ ∃ u, exec i s = .next u := by
  unfold startCommand at h
  split at h
  · rename_i u hu; cases h; exact ⟨rfl, u, hu⟩
  · cases h
  · cases h

/-- The three ways a pixel byte of UNHIDE's stream goes in (R195): inside a group, the terminator, a payload byte. -/
theorem shifted_cases (s : State) (p : Byte) :
    (s.idx % 8 ≠ 7 ∧ s.shifted p = { s with shift := shiftIn s.shift p, idx := s.idx + 1 }) ∨
    (s.idx % 8 = 7 ∧ shiftIn s.shift p = term ∧ s.shifted p = { s with
      shift := term, foundNul := true, phase := .validate, idx := s.idx + 1 }) ∨
    (s.idx % 8 = 7 ∧ shiftIn s.shift p ≠ term ∧ s.shifted p = { s with
      shift := shiftIn s.shift p, matched := (s.shifted p).matched, acc := s.acc.write s.accLen (shiftIn s.shift p),
      accLen := s.accLen + 1, idx := s.idx + 1 }) := by
  by_cases h : s.idx % 8 = 7
  · by_cases hv : shiftIn s.shift p = term
    · exact .inr (.inl ⟨h, hv, by simp [State.shifted, State.payload, h, hv, foundNulAfter]⟩)
    · refine .inr (.inr ⟨h, hv, ?_⟩)
      simp only [State.shifted, State.payload, h, hv, if_true, if_false]
  · exact .inl ⟨h, by simp [State.shifted, h]⟩

/-- One step more at the end of a run of the engine. -/
theorem runEngine_snoc {k : Nat} {s t u : State} (h : runEngine k s = .next t) (h' : engineStep t = .next u) :
    runEngine (k + 1) s = .next u := by
  induction k generalizing s with
  | zero => cases h; simp [runEngine, h']
  | succ k ih =>
    unfold runEngine at h ⊢
    split at h
    · exact ih h
    · cases h
    · cases h

/-- A run of the engine in two parts. -/
theorem runEngine_append {j k : Nat} {s t : State} (h : runEngine j s = .next t) :
    runEngine (j + k) s = runEngine k t := by
  induction j generalizing s with
  | zero => cases h; simp
  | succ j ih =>
    rw [show j + 1 + k = (j + k) + 1 by omega, runEngine]
    unfold runEngine at h
    split at h
    · exact ih h
    · cases h
    · cases h

end Sys2Proof.Machine
end

