-- ==== Sys2Proof/Tests/Slice0.lean ====
section
/-! SUPPORT. Tests: each check of WellFormed on an ill-formed move, command words written out from R76, one or two steps
per command on the vectors of spec/95_test_vectors.md, and for every statement with hypotheses a state that meets them. -/

namespace Sys2Proof.Tests

open Sys2Proof Sys2Proof.Machine

/-! ## Helpers -/

/-- The next state of a result, if it has one. -/
def nextOf : Result → Option State
  | .next t => some t
  | .fault _ => none
  | .refused _ => none

/-- The refusal of a result, if it is one. -/
def refusalOf : Result → Option Refusal
  | .next _ => none
  | .fault _ => none
  | .refused r => some r

theorem next_of_field {r : Result} {α : Type} {f : State → α} {a : α} (h : (nextOf r).map f = some a) :
    ∃ t, r = .next t ∧ f t = a := by
  cases r with
  | next t => exact ⟨t, rfl, Option.some.inj h⟩
  | fault _ => cases h
  | refused _ => cases h

/-- After reset, with pixels and message loaded and `N` and `MSG_LEN` set. -/
def loaded (px msg : List Byte) : State :=
  { State.reset with
    n := px.length, msgLen := msg.length, src := Memory.writeBytes [] 0 px, min := Memory.writeBytes [] 0 msg }

/-- Source `S` of vector T11, 40 bytes, unmarked (T25) and without a terminator (T27). -/
def srcS : List Byte :=
  [0x0B, 0x30, 0x55, 0x7A, 0x9F, 0xC4, 0xE9, 0x0E, 0x33, 0x58, 0x7D, 0xA2, 0xC7, 0xEC, 0x11, 0x36, 0x5B, 0x80, 0xA5, 0xCA] ++
    [0xEF, 0x14, 0x39, 0x5E, 0x83, 0xA8, 0xCD, 0xF2, 0x17, 0x3C, 0x61, 0x86, 0xAB, 0xD0, 0xF5, 0x1A, 0x3F, 0x64, 0x89, 0xAE]

/-- Result `D` of vector T11: `S` with the frame 73 74 67 41 00. -/
def dstD : List Byte :=
  [0x0A, 0x31, 0x55, 0x7B, 0x9E, 0xC4, 0xE9, 0x0F, 0x32, 0x59, 0x7D, 0xA3, 0xC6, 0xED, 0x10, 0x36, 0x5A, 0x81, 0xA5, 0xCA] ++
    [0xEE, 0x15, 0x39, 0x5F, 0x82, 0xA9, 0xCC, 0xF2, 0x16, 0x3C, 0x60, 0x87, 0xAA, 0xD0, 0xF4, 0x1A, 0x3E, 0x64, 0x88, 0xAE]

/-- Message "A". -/
def msgA : List Byte := [0x41]

/-- The default token 73 74 67 (R38). -/
def stg : Magic := ⟨0x73, 0x74, 0x67⟩

/-- HIDE of `msgA` in `srcS`, to be taken by the next step. -/
def hideS : State := (loaded srcS msgA).withFetchWord 8 0b00000001

/-- A state in `BUSY`: HIDE after START. -/
def busy : State := (loaded srcS msgA).started .hide

/-- In the middle of UNHIDE's stream, where two payload bytes are in. -/
def streaming : State := { (loaded dstD []).started .unhide with idx := 16, accLen := 2, acc := [(0, 0x73), (1, 0x74)] }

/-! ## WellFormed: every check refuses an ill-formed term -/

theorem test_wellFormed_register_number : (HostMove.readReg 7).wellFormed = true ∧ (HostMove.readReg 8).wellFormed = false ∧
    (HostMove.writeReg 8 0).wellFormed = false := by decide

theorem test_wellFormed_register_width : (HostMove.writeReg 5 255).wellFormed = true ∧
    (HostMove.writeReg 5 256).wellFormed = false ∧ (HostMove.writeReg 0 256).wellFormed = false ∧
    (HostMove.writeReg 2 256).wellFormed = true := by decide

theorem test_wellFormed_space : (HostMove.writeBuf .src 0 0).wellFormed = true ∧
    (HostMove.writeBuf .dst 0 0).wellFormed = false ∧ (HostMove.writeBuf .mout 0 0).wellFormed = false := by decide

/-! ## Decoding (R76, R77): words written out bit by bit -/

theorem test_decode_hide : decode 0b00000001 = .ok .hide := by decide
theorem test_decode_unhide : decode 0b00000010 = .ok .unhide := by decide
theorem test_decode_reserved : decode 0b00000000 = .error (.reservedOpcode 0) ∧
    decode 0b00000011 = .error (.reservedOpcode 3) ∧ decode 0b10000001 = .error (.reservedOpcode 0x81) := by decide

/-! ## Steps -/

/-- Vector T11: all 40 LSBs are rewritten, `STATUS` = 0x22 (R27). -/
theorem test_hide_writes_frame :
    (nextOf (step hideS)).map (fun t => (t.dst.readBytes 0 40, t.status, t.cmd)) = some (some dstD, 0x22, 0x00) := by decide

/-- R113, R155: a source that is too small and marked reports `STEG_TOO_BIG`. -/
theorem test_hide_too_big_comes_first :
    (nextOf (exec .hide (loaded (dstD.take 39) msgA))).map (fun t => (t.status, t.dst)) = some (0x26, []) := by decide

/-- Vector T28 with R135: the message "A" comes back. -/
theorem test_unhide_returns_message :
    (nextOf (step ((loaded dstD []).withFetchWord 8 0b00000010))).map (fun t => (t.mout, t.outLen, t.status)) =
      some ([(0, 0x41)], 1, 0x42) := by decide

/-- R53, R133: the last partial group is never decoded: without the terminator's last pixel byte it is `STEG_BAD_MSG`. -/
theorem test_unhide_partial_group :
    (nextOf (exec .unhide (loaded (dstD.take 39) []))).map (fun t => (t.outLen, t.status)) = some (0, 0x52) := by decide

/-- R192, R191: one step of the step-level machine after START. -/
theorem test_fine_step_probes :
    (nextOf (engineStep busy)).map (fun t => (t.flen, t.phase, t.status)) = some (5, .checkMagic, 0x21) := by decide

/-- R195: a group's last pixel byte completes payload byte 2, 0x67. -/
theorem test_fine_step_completes_byte :
    (nextOf (engineStep { streaming with idx := 23, shift := 0x33 })).map (fun t => (t.acc, t.accLen, t.idx, t.matched)) =
      some ([(0, 0x73), (1, 0x74), (2, 0x67)], 3, 24, true) := by decide

/-- R199: a host's byte goes into `SRC`. -/
theorem test_host_step_writes :
    (nextOf (step { State.reset with inbox := [.writeBuf .src 5 0x7B] })).map (fun t => (t.src, t.inbox)) =
      some ([(5, 0x7B)], []) := by decide

/-- R38, R39: a byte that nothing has written has no value to read, and `COPYBACK` of none is nothing (N = 0). -/
theorem test_unwritten_byte : refusalOf (hostMove (.readBuf .src 0) State.reset) = some (.unwrittenByte .src) ∧
    (nextOf (hostMove .copyBack State.reset)).map (·.src) = some [] := by decide

/-! ## Witnesses: for each statement with hypotheses, inputs that meet them, at the ends of each clause's range -/

theorem witness_ReservedCodesRefused :
    ((0x00 : Byte) ≠ 0x01 ∧ (0x00 : Byte) ≠ 0x02) ∧ ((0x03 : Byte) ≠ 0x01 ∧ (0x03 : Byte) ≠ 0x02) ∧
      ((0xFF : Byte) ≠ 0x01 ∧ (0xFF : Byte) ≠ 0x02) ∧ State.reset.resting = true ∧ busy.resting = false := by decide

theorem witness_StepRunsPendingCommand : decode hideS.cmd = .ok .hide ∧
    decode (State.reset.withFetchWord 8 2).cmd = .ok .unhide ∧ (State.reset.withFetchWord 8 3).cmd ≠ 0 ∧
    decode (State.reset.withFetchWord 8 3).cmd = .error (.reservedOpcode 3) := by decide

theorem witness_WrittenCommandRunsNext : State.reset.cmd = 0 ∧ State.reset.resting = true ∧
    (∃ t, exec .hide State.reset = .next t ∧ t.status = 0x26) ∧
    ({ State.reset with n := 8 } : State).cmd = 0 ∧ ({ State.reset with n := 8 } : State).resting = true ∧
    exec .unhide { State.reset with n := 8 } = .refused (.unwrittenByte .src) :=
  ⟨by decide, by decide, next_of_field (by decide), by decide, by decide, rfl⟩

theorem witness_ResetFromAnyPhase : ({ streaming with inbox := [.reset] } : State).cmd = 0 ∧
    ({ streaming with inbox := [.reset] } : State).inbox = .reset :: [] := by decide

theorem witness_FrameLayout : (0 < msgA.length) ∧ ¬(0 < ([] : List Byte).length) := by decide

theorem witness_FrameBits : (0 < 8 * msgA.length ∧ msgA[0 / 8]? = some 0x41) ∧
    (7 < 8 * msgA.length ∧ msgA[7 / 8]? = some 0x41) ∧ 8 * msgA.length ≤ 8 := by decide

theorem witness_BitToPixelMap : 8 * (frame stg msgA).length ≤ srcS.length ∧ 8 * (frame stg msgA).length = srcS.length ∧
    (4 < (frame stg msgA).length ∧ 39 < 8 * (frame stg msgA).length) ∧ 8 * msgA.length ≤ srcS.length ∧
    8 * msgA.length ≤ 8 := by decide

theorem witness_LsbWriteMapping : (0xFF : Byte).getLsbD 0 = true ∧ (0x00 : Byte).getLsbD 0 = false := by decide

theorem witness_UnpackByteSum :
    (∀ j < 8, listReader srcS (8 * 4 + j) = some ((srcS[32 + j]?).getD 0)) ∧
      (7 < 8 ∧ listReader (srcS.take 39) (8 * 4 + 7) = none) ∧
      (∀ j < 8, (listReader srcS (8 * 0 + j)).map lsbRead = (listReader [1, 0, 1, 0, 1, 0, 1, 0] (8 * 0 + j)).map lsbRead) ∧
      (∀ j < 8, ((fun _ => 0x10 : Nat → Byte) j).toNat % 2 = 0) ∧ (∀ j < 8, ((fun _ => 0x11 : Nat → Byte) j).toNat % 2 = 1) := by
  decide

theorem witness_EmbedReadBack : 8 * (frame stg msgA).length ≤ srcS.length ∧ 8 * (frame stg []).length ≤ srcS.length ∧
    (frame stg []).length ≤ 4 := by decide

theorem witness_DetectorAfterEmbed : 8 * (frame stg []).length ≤ (srcS.take 32).length := by decide

theorem witness_FrameRoundTrip : (∀ v ∈ msgA, v ≠ 0x00) ∧ (∀ v ∈ stg.bytes, v ≠ 0x00) ∧
    capacityOk msgA.length srcS.length = true ∧ capacityOk ([] : List Byte).length 32 = true := by decide

theorem witness_CapacityRule : 31 < 32 ∧ 32 ≤ 32 ∧ capacityOk 0 32 = true ∧ capacityOk 1 32 = false := by decide

theorem witness_MagicDetector :
    magicPresent (listReader dstD) 24 stg = true ∧ magicPresent (listReader dstD) 23 stg = false ∧
      (∀ i < 24, (listReader dstD i).map lsbRead = (listReader (dstD.map (· ||| 0x80)) i).map lsbRead) ∧
      ((∀ i < 24, (listReader (List.replicate 24 0x10) i).map lsbRead = some false) ∧
        magicPresent (listReader (List.replicate 24 0x10)) 24 ⟨0, 0, 0⟩ = true) ∧
      ((∀ i < 24, (listReader (List.replicate 24 0x11) i).map lsbRead = some true) ∧
        magicPresent (listReader (List.replicate 24 0x11)) 24 ⟨0xFF, 0xFF, 0xFF⟩ = true) := by decide

theorem witness_ScanFindsTerminator :
    ((4 < 40 / 8 ∧ unpackByte (listReader dstD) 4 = some 0x00) ∧
      ∀ k < 4, unpackByte (listReader dstD) k = some (([0x73, 0x74, 0x67, 0x41] : List Byte)[k]?.getD 0) ∧
        ([0x73, 0x74, 0x67, 0x41] : List Byte)[k]?.getD 0 ≠ 0x00) ∧
      (∀ k < 40 / 8, unpackByte (listReader srcS) k = some ((fun _ => 0xAA : Nat → Byte) k) ∧
        (fun _ => 0xAA : Nat → Byte) k ≠ 0x00) ∧
      (7 < 8 ∧ 8 ≤ 8 ∧ ∀ j < 8, (listReader (List.replicate 8 0x10) j).map lsbRead = some false) ∧
      (∀ i < 40, (listReader srcS i).isSome) ∧
      ∀ k < 40 / 8, ∃ j < 8, (listReader srcS (8 * k + j)).map lsbRead = some true := by decide

theorem witness_FramingValidator : (∀ v ∈ stg.bytes, v ≠ 0x00) ∧
    scan (listReader dstD) 40 = some ⟨[0x73, 0x74, 0x67, 0x41], true⟩ ∧ validate [0x73, 0x74, 0x67] stg = true ∧
    validate [0x73, 0x74] stg = false := by decide

theorem witness_HideTooBig : HideStartOk (loaded (srcS.take 39) msgA) ∧
    (loaded (srcS.take 39) msgA).n < 8 * ((loaded (srcS.take 39) msgA).msgLen + 4) ∧ HideStartOk State.reset ∧
    State.reset.n < 8 * (State.reset.msgLen + 4) := by decide

theorem witness_HideAlreadyHidden : Admitted .hide (loaded dstD msgA) ∧
    8 * ((loaded dstD msgA).msgLen + 4) ≤ (loaded dstD msgA).n ∧
    magicPresent (loaded dstD msgA).pixelReader (loaded dstD msgA).n (loaded dstD msgA).magic = true := by decide

theorem witness_HideEmbeds : Admitted .hide (loaded srcS msgA) ∧
    8 * ((loaded srcS msgA).msgLen + 4) ≤ (loaded srcS msgA).n ∧
    magicPresent (loaded srcS msgA).pixelReader (loaded srcS msgA).n (loaded srcS msgA).magic = false := by decide

/-- With room to spare: message bytes none, 40 pixel bytes, so that 8 bytes are copied. -/
theorem witness_HideEmbeds_copies : Admitted .hide (loaded srcS []) ∧
    8 * ((loaded srcS []).msgLen + 4) ≤ 32 ∧ 32 < (loaded srcS []).n ∧
    magicPresent (loaded srcS []).pixelReader (loaded srcS []).n (loaded srcS []).magic = false := by decide

/-- HIDE's three outcomes, for HideFrame and HideStatus. -/
theorem witness_HideFrame : (∃ t, exec .hide (loaded srcS msgA) = .next t ∧ t.status = 0x22) ∧
    (∃ t, exec .hide (loaded (srcS.take 39) msgA) = .next t ∧ t.status = 0x26) ∧
    ∃ t, exec .hide (loaded dstD msgA) = .next t ∧ t.status = 0x2A :=
  ⟨next_of_field (by decide), next_of_field (by decide), next_of_field (by decide)⟩

theorem witness_HideStatus : (∃ t, exec .hide (loaded srcS msgA) = .next t ∧ statusErr t.status = 0) ∧
    (∃ t, exec .hide (loaded (srcS.take 39) msgA) = .next t ∧ statusErr t.status = 1) ∧
    ∃ t, exec .hide (loaded dstD msgA) = .next t ∧ statusErr t.status = 2 :=
  ⟨next_of_field (by decide), next_of_field (by decide), next_of_field (by decide)⟩

theorem witness_CapacityBoundary : Admitted .hide (loaded srcS msgA) ∧
    magicPresent (loaded srcS msgA).pixelReader (loaded srcS msgA).n (loaded srcS msgA).magic = false ∧
    8 * ((loaded srcS msgA).msgLen + 4) = (loaded srcS msgA).n ∧ 39 < (loaded srcS msgA).n ∧
    capAllows (loaded srcS msgA).caps.lmax ((loaded srcS msgA).msgLen + 1) = true := by decide

/-- HIDE of `msgA` in `srcS`, copied back. -/
def chained : State := { loaded dstD msgA with dst := Memory.writeBytes [] 0 dstD, status := 0x22, phase := .done }

theorem chained_eq : exec .hide (loaded srcS msgA) = .next { chained with src := (loaded srcS msgA).src } ∧
    hostMove .copyBack { chained with src := (loaded srcS msgA).src } = .next chained := by
  obtain ⟨t, ht, e⟩ := next_of_field (r := exec .hide (loaded srcS msgA)) (f := id)
    (a := { chained with src := (loaded srcS msgA).src }) (by decide)
  obtain ⟨u, hu, e'⟩ := next_of_field (r := hostMove .copyBack { chained with src := (loaded srcS msgA).src }) (f := id)
    (a := chained) (by decide)
  cases e; cases e'
  exact ⟨ht, hu⟩

theorem witness_HideTwiceRejected : ({ chained with src := (loaded srcS msgA).src } : State).status = 0x22 ∧
    chained = { chained with msgLen := chained.msgLen, min := chained.min } ∧ HideStartOk chained ∧
    capacityOk chained.msgLen chained.n = true ∧ HideStartOk { chained with msgLen := 2, min := [(0, 0x41), (1, 0x42)] } ∧
    capacityOk 2 chained.n = false := by decide

/-- Payload bytes 73 74 67 41 00 (T28). -/
theorem witness_UnhideReturnsMessage : StartOk (loaded dstD []) ∧
    ([0x73, 0x74, 0x67, 0x41] : List Byte).length < (loaded dstD []).n / 8 ∧
    (∀ k < 4, unpackByte (loaded dstD []).pixelReader k = ([0x73, 0x74, 0x67, 0x41] : List Byte)[k]?) ∧
    (∀ v ∈ ([0x73, 0x74, 0x67, 0x41] : List Byte), v ≠ 0x00) ∧ unpackByte (loaded dstD []).pixelReader 4 = some 0x00 ∧
    ([0x73, 0x74, 0x67, 0x41] : List Byte).take 3 = (loaded dstD []).magic.bytes := by decide

/-- The empty message: payload bytes 73 74 67 00, from the frame embedded in 32 pixel bytes. -/
theorem witness_UnhideReturnsMessage_empty :
    StartOk (loaded (embed (srcS.take 32) (frame stg [])) []) ∧ stg.bytes.length < 32 / 8 ∧
    (∀ k < 3, unpackByte (loaded (embed (srcS.take 32) (frame stg [])) []).pixelReader k = stg.bytes[k]?) ∧
    unpackByte (loaded (embed (srcS.take 32) (frame stg [])) []).pixelReader 3 = some 0x00 := by decide

/-- Payload bytes AA AA AA AA AA and no terminator (T27); and a buffer shorter than one group. -/
theorem witness_UnhideBadMsg : StartOk (loaded srcS []) ∧ (List.replicate 5 (0xAA : Byte)).length = (loaded srcS []).n / 8 ∧
    (∀ k < 5, unpackByte (loaded srcS []).pixelReader k = (List.replicate 5 (0xAA : Byte))[k]?) ∧
    (∀ v ∈ List.replicate 5 (0xAA : Byte), v ≠ 0x00) ∧ StartOk (loaded (srcS.take 7) []) ∧
    (loaded (srcS.take 7) []).n < 8 := by decide

/-- A terminator at once (even bytes, T26): no payload byte before it. And the token of T28 against another `MAGIC`. -/
theorem witness_UnhideNoMsg :
    (StartOk (loaded (List.replicate 8 0x10) []) ∧ 0 < (loaded (List.replicate 8 0x10) []).n / 8 ∧
      unpackByte (loaded (List.replicate 8 0x10) []).pixelReader 0 = some 0x00 ∧
      ¬(3 ≤ ([] : List Byte).length ∧ ([] : List Byte).take 3 = (loaded (List.replicate 8 0x10) []).magic.bytes)) ∧
    StartOk { loaded dstD [] with magic := ⟨0x41, 0x42, 0x43⟩ } ∧
    ¬(3 ≤ 4 ∧ ([0x73, 0x74, 0x67, 0x41] : List Byte).take 3 = (⟨0x41, 0x42, 0x43⟩ : Magic).bytes) := by decide

theorem witness_UnhideNoMsg_error : ∃ t, exec .unhide (loaded (List.replicate 8 0x10) []) = .next t ∧
    statusErr t.status = 3 := next_of_field (by decide)

/-- UNHIDE's three outcomes, for UnhideFrame and UnhideOutputBound. -/
theorem witness_UnhideFrame : (∃ t, exec .unhide (loaded dstD []) = .next t ∧ statusErr t.status = 0) ∧
    (∃ t, exec .unhide (loaded (List.replicate 8 0x10) []) = .next t ∧ statusErr t.status = 3) ∧
    ∃ t, exec .unhide (loaded srcS []) = .next t ∧ statusErr t.status = 4 :=
  ⟨next_of_field (by decide), next_of_field (by decide), next_of_field (by decide)⟩

theorem witness_UnhideOutputBound : ∃ t, exec .unhide (loaded dstD []) = .next t ∧ (t.status, t.outLen, t.accLen) = (0x42, 1, 4) :=
  next_of_field (by decide)

theorem witness_UpperBitsNoInfluence :
    (∀ i < 40, ((loaded dstD msgA).src.read i).map lsbRead =
      ((Memory.writeBytes [] 0 (dstD.map (· ^^^ 0x80))).read i).map lsbRead) ∧
    (∃ t, exec .unhide (loaded dstD msgA) = .next t ∧ t.status = 0x42) ∧
    ∃ t, exec .hide (loaded dstD msgA) = .next t ∧ t.status = 0x2A :=
  ⟨by decide, next_of_field (by decide), next_of_field (by decide)⟩

/-- The terminator of T28 ends at pixel byte 40; the bytes after it differ, and one has no value. -/
theorem witness_UnhideIgnoresTail :
    (∃ t, exec .unhide (loaded (dstD ++ [0xFF]) []) = .next t ∧ (t.foundNul, t.accLen) = (true, 4)) ∧
    ∀ i < 8 * (4 + 1), (loaded (dstD ++ [0xFF]) []).src.read i = (loaded dstD []).src.read i :=
  ⟨next_of_field (by decide), by decide⟩

theorem witness_MachineRoundTrip : (∃ t, exec .hide (loaded srcS msgA) = .next t ∧ t.status = 0x22) ∧
    (∀ i < (loaded srcS msgA).msgLen, (loaded srcS msgA).min.read i ≠ some 0x00) ∧
    ∀ v ∈ (loaded srcS msgA).magic.bytes, v ≠ 0x00 :=
  ⟨next_of_field (by decide), by decide, by decide⟩

/-- A message whose one byte is 0x00, and a token with a 0x00 byte. -/
theorem witness_EmbeddedNulTruncates :
    ((∃ t, exec .hide (loaded srcS [0x00]) = .next t ∧ t.status = 0x22) ∧ 0 < (loaded srcS [0x00]).msgLen ∧
      (loaded srcS [0x00]).min.read 0 = some 0x00 ∧ ∀ v ∈ (loaded srcS [0x00]).magic.bytes, v ≠ 0x00) ∧
    (∃ t, exec .hide { loaded srcS msgA with magic := ⟨0x73, 0x00, 0x67⟩ } = .next t ∧ t.status = 0x22) ∧
    0x00 ∈ (⟨0x73, 0x00, 0x67⟩ : Magic).bytes :=
  ⟨⟨next_of_field (by decide), by decide, by decide, by decide⟩, next_of_field (by decide), by decide⟩

theorem witness_CommandRepeats : MemoryInv (loaded srcS msgA) ∧
    (∃ t, exec .hide (loaded srcS msgA) = .next t ∧ t.status = 0x22) ∧ MemoryInv (loaded dstD []) ∧
    ∃ t, exec .unhide (loaded dstD []) = .next t ∧ t.status = 0x42 :=
  ⟨by decide, next_of_field (by decide), by decide, next_of_field (by decide)⟩

/-- A command admitted and taken, one not admitted, a word that is no command. -/
theorem witness_AdmissionExact : Admitted .hide (loaded srcS msgA) ∧ ¬Admitted .hide { State.reset with n := 40 } ∧
    ¬Admitted .unhide busy ∧ (∃ t, exec .unhide (loaded dstD []) = .next t ∧ t.status = 0x42) ∧
    (∃ i, decode 0x01 = .ok i ∧ Admitted i (loaded srcS msgA)) ∧ ¬∃ i, decode 0x03 = .ok i ∧ Admitted i (loaded srcS msgA) :=
  ⟨by decide, fun h => absurd (h.1.2.2 : Written [] 0) (fun _ => absurd (h.2 : capacityOk 0 40 = true → Written [] 40)
      (by decide)), fun h => absurd (h.1.1 : busy.resting = true) (by decide), next_of_field (by decide),
    ⟨.hide, by decide, by decide⟩, fun ⟨i, h, _⟩ => by revert h; cases i <;> decide⟩

theorem witness_EngineNeverWritesOperands : (∃ t, exec .hide (loaded srcS msgA) = .next t ∧ t.n = 40) ∧
    (∃ t, startCommand .unhide (loaded dstD []) = .next t ∧ t.n = 40) ∧ ∃ t, engineStep streaming = .next t ∧ t.idx = 17 :=
  ⟨next_of_field (by decide), next_of_field (by decide), next_of_field (by decide)⟩

theorem witness_HostRegisters : State.reset.resting = true ∧ chained.resting = true ∧ 8 ≤ 8 := by decide

theorem witness_BusyHostAccess : statusState busy.status = 1 ∧ statusState streaming.status = 1 ∧ 0 ≠ 1 ∧ 2 ≠ 0 := by decide

theorem witness_HostBufferWriteThenRead :
    (∃ t, hostMove (.writeBuf .src 0 0x7B) State.reset = .next t ∧ t.src = [(0, 0x7B)]) ∧
    ∃ t, hostMove (.writeBuf .min 3 0x41) { State.reset with caps := ⟨none, some 4⟩ } = .next t ∧ t.min = [(3, 0x41)] :=
  ⟨next_of_field (by decide), next_of_field (by decide)⟩

theorem witness_IllFormedMoveRefused : (HostMove.readReg 8).wellFormed = false ∧ (HostMove.writeReg 7 256).wellFormed = false ∧
    (HostMove.writeBuf .mout 0 0).wellFormed = false := by decide

theorem witness_IdleEngineWaits : State.reset.cmd = 0 ∧ State.reset.inbox = [] ∧
    (State.reset.phase = .idle ∨ State.reset.phase = .done) ∧ chained.cmd = 0 ∧ chained.inbox = [] ∧
    (chained.phase = .idle ∨ chained.phase = .done) := by decide

theorem witness_StepKeepsMemoryCanonical : (MemoryInv hideS ∧ ∃ t, step hideS = .next t ∧ t.status = 0x22) ∧
    MemoryInv streaming ∧ ∃ t, fineStep streaming = .next t ∧ t.idx = 17 :=
  ⟨⟨by decide, next_of_field (by decide)⟩, by decide, next_of_field (by decide)⟩

theorem witness_StepKeepsStatusLegal : (StatusInv hideS ∧ ∃ t, step hideS = .next t ∧ t.status = 0x22) ∧
    StatusInv streaming ∧ ∃ t, fineStep streaming = .next t ∧ t.idx = 17 :=
  ⟨⟨by decide, next_of_field (by decide)⟩, by decide, next_of_field (by decide)⟩

theorem witness_StepKeepsOutputs : (OutputInv hideS ∧ ∃ t, step hideS = .next t ∧ t.status = 0x22) ∧
    OutputInv streaming ∧ ∃ t, fineStep streaming = .next t ∧ t.idx = 17 :=
  ⟨⟨by decide, next_of_field (by decide)⟩, by decide, next_of_field (by decide)⟩

/-- The premises of StepKeepsCapacity with capacities that are exactly full. -/
theorem witness_StepKeepsCapacity :
    (StatusInv { streaming with caps := ⟨some 40, some 0⟩ } ∧ CapacityInv { streaming with caps := ⟨some 40, some 0⟩ } ∧
      ∃ t, fineStep { streaming with caps := ⟨some 40, some 0⟩ } = .next t ∧ t.idx = 17) ∧
    StatusInv hideS ∧ CapacityInv hideS ∧ ∃ t, step hideS = .next t ∧ t.status = 0x22 :=
  ⟨⟨by decide, ⟨by decide, by decide, by decide, by decide, by decide, by decide, by decide, by decide, by decide⟩, next_of_field (by decide)⟩, by decide,
    ⟨by decide, by decide, by decide, by decide, by decide, trivial⟩, next_of_field (by decide)⟩

theorem witness_StepKeepsPendingAdmitted : PendingInv hideS ∧ hideS.cmd ≠ 0 ∧
    ∃ t, step hideS = .next t ∧ t.status = 0x22 :=
  ⟨fun _ => ⟨.hide, by decide, by decide⟩, by decide, next_of_field (by decide)⟩

theorem witness_StartStep : Admitted .hide (loaded srcS msgA) ∧ Admitted .hide State.reset ∧ ¬Admitted .hide busy :=
  ⟨by decide, by decide, fun h => absurd (h.1.1.1 : busy.resting = true) (by decide)⟩

theorem witness_StartStep_unhide : Admitted .unhide State.reset := ⟨by decide, fun k hk => absurd hk (by simp [State.reset])⟩

theorem witness_CheckCapacityStep : (busy.phase = .checkCapacity ∧ 8 * (busy.msgLen + 4) ≤ busy.n) ∧
    ((loaded (srcS.take 39) msgA).started .hide).phase = .checkCapacity ∧
    ((loaded (srcS.take 39) msgA).started .hide).n < 8 * (((loaded (srcS.take 39) msgA).started .hide).msgLen + 4) := by decide

theorem witness_CheckMagicPhase : ({ busy with phase := .checkMagic } : State).phase = .checkMagic ∧ busy.idx = 0 ∧
    busy.matched = true ∧ 24 ≤ busy.n ∧ Written busy.src 24 ∧ magicPresent busy.pixelReader busy.n busy.magic = false ∧
    Written (loaded dstD msgA).src 24 ∧ magicPresent (loaded dstD msgA).pixelReader 40 (loaded dstD msgA).magic = true := by
  decide

/-- HIDE's three outcomes and UNHIDE's, for the two refinement statements. -/
theorem witness_StepLevelRefines : (∃ t, exec .hide (loaded srcS msgA) = .next t ∧ t.status = 0x22) ∧
    (∃ t, exec .hide (loaded (srcS.take 39) msgA) = .next t ∧ t.status = 0x26) ∧
    (∃ t, exec .hide (loaded dstD msgA) = .next t ∧ t.status = 0x2A) ∧
    (∃ t, exec .unhide (loaded dstD []) = .next t ∧ (t.foundNul, t.accLen) = (true, 4)) ∧
    ∃ t, exec .unhide (loaded srcS []) = .next t ∧ (t.foundNul, t.accLen) = (false, 5) :=
  ⟨next_of_field (by decide), next_of_field (by decide), next_of_field (by decide), next_of_field (by decide),
    next_of_field (by decide)⟩

end Sys2Proof.Tests
end

section
/-! PROOFS. The encoding statements: the reserved command words (R77), the layout of the Framed Message (R70, R71) and the
bit-to-pixel map (R72). -/

namespace Sys2Proof

/-- A row whose mask covers the whole word accepts its pattern only (R78). -/
theorem accepts_fullMask (p c : Byte) (i : Instr) : (OpcodeRow.mk 0xFF p i).accepts c = (c == p) := by
  have hmask : c &&& 0xFF = c := BitVec.and_allOnes (x := c)
  simp only [OpcodeRow.accepts, hmask]

/-- A word that is neither opcode is matched by no row and rejected by name (R77, R78). -/
theorem decode_eq_reserved {c : Byte} (h1 : c ≠ 0x01) (h2 : c ≠ 0x02) : decode c = .error (.reservedOpcode c) := by
  have hnone : opcodeTable.find? (·.accepts c) = none := by
    simp only [opcodeTable, List.find?_cons, accepts_fullMask, beq_eq_false_iff_ne.2 h1, beq_eq_false_iff_ne.2 h2,
      List.find?_nil]
  simp only [decode, hnone]

namespace Machine

/-! ## The host's write of `CMD` -/

/-- A word `decode` rejects is refused, whatever state the write finds (R77, R168). -/
theorem hostWriteCmd_of_reserved {c d : Byte} (h : decode c = .error (.reservedOpcode d)) (s : State) :
    hostWriteCmd c.toNat s = .refused (.reservedOpcode d) := by
  simp only [hostWriteCmd, if_pos c.isLt, BitVec.ofNat_toNat, BitVec.setWidth_eq, h]

/-- While no command runs, writing register 0 is the write of `CMD` (R25, R26). -/
theorem hostMove_writeCmd_of_resting {s : State} (hs : s.resting = true) (v : Nat) :
    hostMove (.writeReg 0 v) s = hostWriteCmd v s := by
  simp [hostMove, hostWriteReg, hs]

/-- While a command runs, `CMD` may not be written, whatever the value (R40, R168). -/
theorem hostMove_writeCmd_of_running {s : State} (hs : s.resting = false) (v : Nat) :
    hostMove (.writeReg 0 v) s = .refused .commandWhileBusy := by
  simp [hostMove, hostWriteReg, hs]

/-! ## The bytes of the frame -/

/-- The frame byte by byte: the token's three bytes, then the message, then the terminator (R70). -/
theorem frame_eq_cons (magic : Magic) (m : List Byte) :
    frame magic m = magic.b0 :: magic.b1 :: magic.b2 :: (m ++ [term]) := rfl

/-- From frame byte 3 on stand the message bytes and the terminator (R70). -/
theorem getElem?_frame_add_three (magic : Magic) (m : List Byte) (i : Nat) :
    (frame magic m)[i + 3]? = (m ++ [term])[i]? := by
  simp only [frame_eq_cons, List.getElem?_cons_succ]

/-! ## The bits of an embedded frame -/

/-- The LSBs of an embedded frame that fits are the frame's bits (R72, R95). -/
theorem lsbRead_embed {px f : List Byte} (hfit : 8 * f.length ≤ px.length) {i : Nat} (hi : i < 8 * f.length) :
    ((embed px f)[i]?).map lsbRead = framebit f i := by
  have hpx : px[i]? = some px[i] := List.getElem?_eq_getElem (by omega)
  have hbit := framebit_of_lt (f := f) (i := i) (by omega)
  simp [getElem?_embed, hpx, embedByte, hbit]

/-- Past the frame the pixel bytes are the source's (R72, R95). -/
theorem getElem?_embed_past (px : List Byte) {f : List Byte} {i : Nat} (hi : 8 * f.length ≤ i) :
    (embed px f)[i]? = px[i]? := by
  have hcopy : embedByte f i = id := by
    funext p
    simp [embedByte, framebit_eq_none (f := f) (i := i) (by omega)]
  rw [getElem?_embed, hcopy, Option.map_id, id]

/-- Bit `8 * k + j` of the stream is bit `7 - j` of frame byte `k` (R72). -/
theorem framebit_mul_add (f : List Byte) (k : Nat) {j : Nat} (hj : j < 8) :
    framebit f (8 * k + j) = (f[k]?).map fun b => b.getLsbD (7 - j) := by
  have hdiv : (8 * k + j) / 8 = k := by omega
  have hmod : (8 * k + j) % 8 = j := by omega
  simp only [framebit, hdiv, hmod]

end Machine

end Sys2Proof
end

section
open Sys2Proof Sys2Proof.Machine

/-- Settles O11: the LSBs of an embedded frame are `framebit`, which read at `8 * k + j` gives the map forwards and read
at `i` gives it backwards; past the frame `embed` copies. -/
theorem bitToPixelMap : Obligations.BitToPixelMap := by
  unfold Obligations.BitToPixelMap
  intro px f hfit
  refine ⟨fun k hk j hj => ?_, fun i hi => ?_, fun i hi => getElem?_embed_past px hi⟩
  · rw [lsbRead_embed hfit (by omega), framebit_mul_add f k hj]
  · rw [lsbRead_embed hfit hi, framebit]

/-- Settles O3: no row of the opcode table accepts the word, so a resting machine refuses it by name; a running one refuses
every write of `CMD`. -/
theorem reservedCodesRefused : Obligations.ReservedCodesRefused := by
  unfold Obligations.ReservedCodesRefused
  intro c h1 h2
  have hdec := decode_eq_reserved h1 h2
  refine ⟨hdec, fun s hs => ?_, fun s hs => hostMove_writeCmd_of_running hs _⟩
  rw [hostMove_writeCmd_of_resting hs, hostWriteCmd_of_reserved hdec]

/-- Settles O9: the frame is the three token bytes consed onto message and terminator, which gives each index; the length
is `length_frame`. -/
theorem frameLayout : Obligations.FrameLayout := by
  unfold Obligations.FrameLayout
  refine ⟨fun magic m => ⟨length_frame magic m, ?_, rfl, rfl, rfl, fun i hi => ?_, ?_⟩, fun _ => ⟨rfl, rfl⟩, rfl⟩
  · rw [length_frame]; omega
  · rw [Nat.add_comm, getElem?_frame_add_three, List.getElem?_append_left hi]
  · rw [getElem?_frame_add_three, List.getElem?_concat_length, term]

end

section
/-! PROOFS. The framing rules: the frame's bits (R91), reading and writing one bit (R92, R93), unpacking a group (R94), the
capacity rule (R96) and the scan (R98). -/

namespace Sys2Proof.Machine

/-! ## Reading one bit -/

/-- `lsbRead` as R93 writes it. -/
theorem lsbRead_eq_decide_and (p : Byte) : lsbRead p = decide (p &&& 0x01 = 0x01) := rfl

/-- `lsbRead` is the parity (R93). -/
theorem lsbRead_eq_decide_odd (p : Byte) : lsbRead p = decide (p.toNat % 2 = 1) := by
  rw [lsbRead_eq_bit, BitVec.getLsbD, Nat.testBit_zero]

/-- Flipping any of bits 7 to 1 leaves the bit read (R93). -/
theorem lsbRead_xor_shiftLeft_one (p b : Byte) : lsbRead (p ^^^ (b <<< 1)) = lsbRead p := by
  simp [lsbRead_eq_bit]

/-- Bit `m` of a byte is the bit read after a shift right by `m` (R91, R93). -/
theorem lsbRead_ushiftRight (b : Byte) (m : Nat) : lsbRead (b >>> m) = b.getLsbD m := by
  rw [lsbRead_eq_bit, BitVec.getLsbD_ushiftRight, Nat.add_zero]

/-! ## Writing one bit -/

/-- The equivalent form of `lsbWrite`: clear bit 0, then or the new bit in (R92). -/
theorem lsbWrite_eq_and_or (p : Byte) (b : Bool) : lsbWrite p b = (p &&& 0xFE) ||| (if b then 0x01 else 0x00) := by
  revert p b; decide

/-- The value of a written byte: the upper seven bits stay, `b` is the last (R92). -/
theorem toNat_lsbWrite (p : Byte) (b : Bool) : (lsbWrite p b).toNat = 2 * (p.toNat / 2) + b.toNat := by
  revert p b; decide

/-- Writing the bit that is there changes nothing (R92, R100). -/
theorem lsbWrite_eq_self {p : Byte} {b : Bool} (h : lsbRead p = b) : lsbWrite p b = p := by
  apply BitVec.eq_of_toNat_eq
  subst h
  rw [toNat_lsbWrite, lsbRead_eq_bit, BitVec.getLsbD, Nat.toNat_testBit, Nat.pow_zero, Nat.div_one]
  exact Nat.div_add_mod p.toNat 2

/-! ## The value of a group -/

/-- A natural number's low `n` bits by their weights. -/
theorem mod_two_pow_eq_sum_testBit (x n : Nat) :
    x % 2 ^ n = ∑ i ∈ Finset.range n, (if x.testBit i then 1 else 0) * 2 ^ i := by
  induction n with
  | zero => simp [Nat.mod_one]
  | succ n ih =>
    have hbit : x / 2 ^ n % 2 = if x.testBit n then 1 else 0 := by rw [← Nat.toNat_testBit]; cases x.testBit n <;> rfl
    rw [Finset.sum_range_succ, ← ih, Nat.mod_pow_succ, hbit, Nat.mul_comm (2 ^ n)]

/-- A byte is the sum of its bits by weight, the top bit first (R94). -/
theorem toNat_eq_sum_bits (v : Byte) :
    v.toNat = ∑ j ∈ Finset.range 8, (if v.getLsbD (7 - j) then 1 else 0) * 2 ^ (7 - j) := by
  rw [Finset.sum_range_reflect (fun i => (if v.getLsbD i then 1 else 0) * 2 ^ i) 8]
  exact (Nat.mod_eq_of_lt v.isLt).symm.trans (mod_two_pow_eq_sum_testBit v.toNat 8)

/-- Eight equal LSBs unpack to 0xFF or to 0x00 (R94). -/
theorem unpackByte_of_const_lsb {rd : Reader} {k : Nat} (b : Bool)
    (h : ∀ j < 8, (rd (8 * k + j)).map lsbRead = some b) : unpackByte rd k = some (if b then 0xFF else 0x00) := by
  have hbits : ∀ j < 8, (if b then 0xFF else 0x00 : Byte).getLsbD (7 - j) = b := by cases b <;> decide
  exact unpackByte_eq_of_bits fun j hj => by rw [h j hj, hbits j hj]

/-- A group with a missing pixel byte has no value (R94). -/
theorem unpackByte_eq_none {rd : Reader} {k j : Nat} (hj : j < 8) (h : rd (8 * k + j) = none) :
    unpackByte rd k = none := by
  rw [← Option.not_isSome_iff_eq_none, unpackByte_isSome_iff]
  intro hall
  simpa [h] using hall j hj

/-- A group with an odd pixel byte is no terminator (R94, R98). -/
theorem unpackByte_ne_term {rd : Reader} {k j : Nat} (hj : j < 8) (h : (rd (8 * k + j)).map lsbRead = some true) :
    unpackByte rd k ≠ some term := by
  intro hterm
  simp [getLsbD_unpackByte hterm j hj, term] at h

/-! ## The scan -/

/-- `scan` answers the `K` payload bytes before the group that ends it: the first terminator, or the end of the whole groups
(R98). -/
theorem scan_eq_of_payload {rd : Reader} {n K : Nat} {P : Nat → Byte} {found : Bool}
    (hP : ∀ k < K, unpackByte rd k = some (P k) ∧ P k ≠ term)
    (hend : if found then K < n / 8 ∧ unpackByte rd K = some term else K = n / 8) :
    scan rd n = some ⟨(List.range K).map P, found⟩ := by
  rw [scan_eq_some_iff]
  refine ⟨fun k hk => ?_, ?_, ?_⟩
  · have hk : k < K := by simpa using hk
    simp [hk, (hP k hk).1]
  · simpa using fun k hk => (hP k hk).2
  · simpa using hend

/-- `scan` stops at the first terminator, at `K`, with the `K` bytes before it (R98). -/
theorem scan_eq_found {rd : Reader} {n K : Nat} {P : Nat → Byte} (hK : K < n / 8)
    (hP : ∀ k < K, unpackByte rd k = some (P k) ∧ P k ≠ term) (hterm : unpackByte rd K = some term) :
    scan rd n = some ⟨(List.range K).map P, true⟩ := scan_eq_of_payload hP ⟨hK, hterm⟩

/-- With no terminator among the whole groups `scan` is exhausted, with all their bytes (R98). -/
theorem scan_eq_exhausted {rd : Reader} {n : Nat} {P : Nat → Byte}
    (hP : ∀ k < n / 8, unpackByte rd k = some (P k) ∧ P k ≠ term) :
    scan rd n = some ⟨(List.range (n / 8)).map P, false⟩ := scan_eq_of_payload hP rfl

/-! ## The capacity rule -/

/-- `capacityOk` is the inequality of R96. -/
theorem capacityOk_iff (l n : Nat) : capacityOk l n = true ↔ 8 * (l + 4) ≤ n := decide_eq_true_iff

end Sys2Proof.Machine
end

section
open Sys2Proof Sys2Proof.Machine

/-- Settles O15: bit `7 - j` of the unpacked byte is the LSB of pixel `j`, so the byte's binary expansion is the sum; equal
LSBs are the two corner cases. -/
theorem unpackByteSum : Obligations.UnpackByteSum := by
  unfold Obligations.UnpackByteSum
  refine ⟨fun rd k p hp => ?_, fun rd k j hj h => unpackByte_eq_none hj h,
    fun rd rd' k h => unpackByte_congr h, by decide⟩
  have hlsb : ∀ j < 8, (rd (8 * k + j)).map lsbRead = some (lsbRead (p j)) := fun j hj => by rw [hp j hj, Option.map_some]
  obtain ⟨v, hv⟩ := Option.isSome_iff_exists.1 ((unpackByte_isSome_iff rd k).2 fun j hj => by simp [hp j hj])
  have hconst : ∀ b, (∀ j < 8, lsbRead (p j) = b) → v = if b then 0xFF else 0x00 := fun b hb =>
    Option.some.inj (hv.symm.trans (unpackByte_of_const_lsb b fun j hj => by rw [hlsb j hj, hb j hj]))
  refine ⟨v, hv, ?_, fun heven => ?_, fun hodd => ?_⟩
  · rw [toNat_eq_sum_bits]
    refine Finset.sum_congr rfl fun j hj => ?_
    have hj : j < 8 := Finset.mem_range.1 hj
    have hbit : v.getLsbD (7 - j) = lsbRead (p j) := Option.some.inj ((getLsbD_unpackByte hv j hj).symm.trans (hlsb j hj))
    rw [hbit]
  · exact hconst false fun j hj => by simp [lsbRead_eq_decide_odd, heven j hj]
  · exact hconst true fun j hj => by simp [lsbRead_eq_decide_odd, hodd j hj]

/-- Settles O21: the two outcomes are `scan_eq_found` and `scan_eq_exhausted`; below eight bytes there is no group, eight
even bytes are a terminator in group 0, and an odd byte keeps its group from being one. -/
theorem scanFindsTerminator : Obligations.ScanFindsTerminator := by
  unfold Obligations.ScanFindsTerminator
  refine ⟨fun rd n K P hK hP hterm => scan_eq_found hK hP hterm, fun rd n P hP => scan_eq_exhausted hP,
    fun rd n hn => ?_, fun rd n hn heven => ?_, fun rd n hsome hodd => ?_⟩
  · have hgroups : n / 8 = 0 := Nat.div_eq_of_lt hn
    rw [scan, hgroups, scanGroups]
  · have hterm : unpackByte rd 0 = some term := unpackByte_of_const_lsb false (by simpa using heven)
    exact scan_eq_found (K := 0) (P := fun _ => term) (by omega) (fun k hk => absurd hk k.not_lt_zero) hterm
  · refine ⟨_, scan_eq_exhausted (P := fun k => (unpackByte rd k).getD term) fun k hk => ?_, by simp⟩
    obtain ⟨v, hv⟩ := Option.isSome_iff_exists.1 ((unpackByte_isSome_iff rd k).2 fun j hj => hsome _ (by omega))
    obtain ⟨j, hj, hbit⟩ := hodd k hk
    have hne : v ≠ term := fun hz => unpackByte_ne_term hj hbit (hz ▸ hv)
    simpa [hv] using hne

/-- Settles O10: `framebit` is a bit of frame byte `i / 8`, shifted down and read; the last eight positions lie in the
terminator. -/
theorem frameBits : Obligations.FrameBits := by
  unfold Obligations.FrameBits
  refine ⟨fun f i b _ hb => ?_, fun f i hi => framebit_eq_none (by omega),
    fun magic m => ⟨rfl, fun j hj => ?_⟩, by decide⟩
  · rw [framebit, hb, Option.map_some, ← lsbRead_ushiftRight]
    exact congrArg some (lsbRead_eq_decide_and _)
  · rw [framebit_mul_add _ _ hj, getElem?_frame_add_three, List.getElem?_concat_length, Option.map_some]
    exact congrArg some BitVec.getLsbD_zero

/-- Settles O12: the bounds, and that a byte with `b` in bit 0 stays, follow from the written byte's value, which differs from
`p` in the last bit only. -/
theorem lsbWriteMapping : Obligations.LsbWriteMapping := by
  unfold Obligations.LsbWriteMapping
  refine ⟨fun p => ⟨rfl, rfl, fun b => ⟨lsbWrite_eq_and_or p b, fun hb => ?_, ?_, ?_⟩⟩, by decide⟩
  · exact lsbWrite_eq_self ((lsbRead_eq_bit p).trans hb)
  all_goals
    have hb := b.toNat_lt
    rw [toNat_lsbWrite]
    omega

/-- Settles O13: the definition, the parity and the independence are a lemma each; the values are computed. -/
theorem lsbReadParity : Obligations.LsbReadParity := by
  unfold Obligations.LsbReadParity
  exact ⟨fun p => ⟨lsbRead_eq_decide_and p, lsbRead_eq_decide_odd p, lsbRead_xor_shiftLeft_one p⟩, by decide⟩

/-- Settles O19: every clause is arithmetic on `8 * (L + 4) ≤ N`. -/
theorem capacityRule : Obligations.CapacityRule := by
  unfold Obligations.CapacityRule
  refine ⟨fun l n => rfl, fun l n hn => ?_, fun l => ?_, fun l n hn => ?_, fun l n => ?_, by decide⟩
  · rw [← Bool.not_eq_true, capacityOk_iff]; omega
  · rw [capacityOk_iff]; omega
  · rw [capacityOk_iff]; omega
  · rw [Bool.eq_iff_iff, capacityOk_iff, capacityOk_iff]; omega

end

section
/-! PROOFS. HIDE's outcomes: the capacity check and its boundary (R113, R121), the embedding (R115) and `STATUS` (R118). -/

namespace Sys2Proof.Machine

/-! ## Capacities and buffers -/

/-- A buffer that holds `b` bytes holds fewer (R7). -/
theorem capAllows_of_le {cap : Option Nat} {a b : Nat} (hab : a ≤ b) (hb : capAllows cap b = true) :
    capAllows cap a = true := by
  cases cap with
  | none => rfl
  | some c => exact decide_eq_true (hab.trans (of_decide_eq_true hb))

/-- Appending one byte to a written range gives a written range. -/
theorem written_write_succ {m : Memory} {len : Nat} (v : Byte) (h : Written m len) :
    Written (m.write len v) (len + 1) := by
  intro i hi
  rw [read_write]
  by_cases heq : len = i
  · simp [heq]
  · simpa [heq] using h i (by omega)

/-! ## The end of a command as the host sees it -/

/-- The end of a command shows the host a new `STATUS` and nothing else (R156). -/
theorem hostView_finish (s : State) (i : Instr) (e : Option ErrKind) :
    (s.finish i e).hostView = { s.hostView with status := statusByte .done e i } := rfl

/-! ## HIDE forwards: from what admits it to its outcome -/

/-- A written message can be read out (R81). -/
theorem exists_message {s : State} (h : HideStartOk s) : ∃ m, s.message = some m := by
  obtain ⟨-, -, hmin⟩ := h
  exact (written_iff_readBytes s.min s.msgLen).1 hmin

/-- HIDE of a frame that does not fit raises `STEG_TOO_BIG`, with no condition on `SRC` (R113). -/
theorem exec_hide_of_not_fits {s : State} (hstart : HideStartOk s) (hbig : s.n < 8 * (s.msgLen + 4)) :
    exec .hide s = .next (s.finish .hide (some .tooBig)) := by
  obtain ⟨m, hm⟩ := exists_message hstart
  obtain ⟨hok, hlmax, -⟩ := hstart
  exact (exec_hide_eq_next_iff _ _).2 ⟨⟨hok, hlmax⟩, .tooBig m hm hbig rfl⟩

/-- HIDE of a frame that fits, into an unmarked source, embeds it in the pixels (R115). -/
theorem exec_hide_of_unmarked {s : State} (hadm : Admitted .hide s) (hfit : 8 * (s.msgLen + 4) ≤ s.n)
    (hfree : magicPresent s.pixelReader s.n s.magic = false) :
    ∃ m px, s.message = some m ∧ s.pixels = some px ∧
      exec .hide s = .next ({ s with dst := s.dst.writeBytes 0 (embed px (frame s.magic m)) }.finish .hide none) := by
  obtain ⟨hstart, hsrc⟩ := hadm
  obtain ⟨m, hm⟩ := exists_message hstart
  obtain ⟨px, hpx⟩ := (written_iff_readBytes s.src s.n).1 (hsrc ((capacityOk_iff _ _).2 hfit))
  obtain ⟨hok, hlmax, -⟩ := hstart
  exact ⟨m, px, hm, hpx, (exec_hide_eq_next_iff _ _).2 ⟨⟨hok, hlmax⟩, .embedded m px hm hfit hpx hfree rfl⟩⟩

/-! ## HIDE is admitted at other lengths -/

/-- HIDE stays admitted, but for `SRC`, on a smaller buffer (R169). -/
theorem hideStartOk_of_smaller {s : State} (h : HideStartOk s) {n' : Nat} (hn : n' ≤ s.n) :
    HideStartOk { s with n := n' } := by
  obtain ⟨⟨hrest, hnmax⟩, hmsg⟩ := h
  exact ⟨⟨hrest, capAllows_of_le hn hnmax⟩, hmsg⟩

/-- HIDE stays admitted, but for `SRC`, with one message byte more, if `MIN` has room for it (R169). -/
theorem hideStartOk_of_longer {s : State} (h : HideStartOk s) (b : Byte)
    (hroom : capAllows s.caps.lmax (s.msgLen + 1) = true) :
    HideStartOk { s with min := s.min.write s.msgLen b, msgLen := s.msgLen + 1 } := by
  obtain ⟨hok, -, hmin⟩ := h
  exact ⟨hok, hroom, written_write_succ b hmin⟩

/-! ## The bytes HIDE writes -/

/-- Below `8 * |F|` the embedded bytes are pixel bytes with their LSB replaced by the frame's bit (R95). -/
theorem getElem?_embed_of_lt {px f : List Byte} (hfit : 8 * f.length ≤ px.length) {i : Nat} (hi : i < 8 * f.length) :
    ∃ p b, px[i]? = some p ∧ framebit f i = some b ∧ (embed px f)[i]? = some (lsbWrite p b) := by
  have hpx : px[i]? = some px[i] := List.getElem?_eq_getElem (by omega)
  have hbit := framebit_of_lt (f := f) (i := i) (by omega)
  exact ⟨_, _, hpx, hbit, by rw [getElem?_embed, hpx, Option.map_some, embedByte, hbit]⟩

/-- Writing an embedded buffer from index 0 on reaches its own bytes and no others (R115). -/
theorem read_writeBytes_embed (d : Memory) (px f : List Byte) (i : Nat) :
    (d.writeBytes 0 (embed px f)).read i = if i < px.length then (embed px f)[i]? else d.read i := by
  rw [read_writeBytes_zero, length_embed]

end Sys2Proof.Machine
end

section
open Sys2Proof Sys2Proof.Machine

/-- Settles O23: admission without a word about `SRC` already gives the outcome, and ending a command writes `STATUS` and
`PHASE` only. -/
theorem hideTooBig : Obligations.HideTooBig := by
  unfold Obligations.HideTooBig
  intro s hstart hbig
  exact ⟨_, exec_hide_of_not_fits hstart hbig, hostView_finish .., rfl⟩

/-- Settles O25: HIDE writes the embedded pixels, whose bytes below `8 * (L + 4)` carry the frame and are copies above it;
the write reaches no byte from `N` on. -/
theorem hideEmbeds : Obligations.HideEmbeds := by
  unfold Obligations.HideEmbeds
  intro s hadm hfit hfree
  obtain ⟨m, px, hm, hpx, hexec⟩ := exec_hide_of_unmarked hadm hfit hfree
  obtain ⟨hmlen, -⟩ := (message_eq_some_iff s m).1 hm
  obtain ⟨hlen, hsrc⟩ := (pixels_eq_some_iff s px).1 hpx
  have hflen : (frame s.magic m).length = s.msgLen + 4 := by rw [length_frame, hmlen]
  refine ⟨_, m, hexec, hm, hostView_finish .., rfl, fun i hi => ?_, fun i hi hn => ?_, fun i hn => ?_⟩
  · obtain ⟨p, b, hp, hb, hout⟩ := getElem?_embed_of_lt (px := px) (f := frame s.magic m) (i := i) (by omega) (by omega)
    refine ⟨p, b, by rw [hsrc i (by omega), hp], hb, ?_⟩
    rw [finish_dst, read_writeBytes_embed, if_pos (by omega), hout]
  · have hpast : (embed px (frame s.magic m))[i]? = px[i]? := getElem?_embed_past px (by omega)
    rw [finish_dst, read_writeBytes_embed, if_pos (by omega), hpast, hsrc i hn]
    exact ⟨by simp [hlen, hn], rfl⟩
  · rw [finish_dst, read_writeBytes_embed, if_neg (by omega)]

/-- Settles O27: each of HIDE's three outcomes ends the command with its own code, and their conditions exclude each
other. -/
theorem hideStatus : Obligations.HideStatus := by
  unfold Obligations.HideStatus
  intro s t hexec
  obtain ⟨-, houtcome⟩ := (exec_hide_eq_next_iff s t).1 hexec
  cases houtcome with
  | tooBig m hm hbig ht => subst ht; simp [runStateCode, opCode, errCode, hbig]
  | marked m px hm hfit hp hd ht => subst ht; simp [runStateCode, opCode, errCode, hfit, hd]
  | embedded m px hm hfit hp hd ht => subst ht; simp [runStateCode, opCode, errCode, hfit, hd]

/-- Settles O28: at equality the frame fits; a smaller `N` and a longer message each leave HIDE admitted, but the frame no
longer fits. -/
theorem capacityBoundary : Obligations.CapacityBoundary := by
  unfold Obligations.CapacityBoundary
  intro s hadm hfree heq
  have hstart : HideStartOk s := hadm.1
  refine ⟨?_, fun n' hn' => ?_, fun b hroom => ?_⟩
  · obtain ⟨m, px, -, -, hexec⟩ := exec_hide_of_unmarked hadm heq.le hfree
    exact ⟨_, hexec, rfl⟩
  · have hbig : n' < 8 * (s.msgLen + 4) := by omega
    exact ⟨_, exec_hide_of_not_fits (hideStartOk_of_smaller hstart hn'.le) hbig, rfl⟩
  · have hbig : s.n < 8 * (s.msgLen + 1 + 4) := by omega
    exact ⟨_, exec_hide_of_not_fits (hideStartOk_of_longer hstart b hroom) hbig, rfl⟩

end

section
/-! PROOFS. UNHIDE's outcomes: the message returned (R135), no terminator (R133) and no token (R134). -/

namespace Sys2Proof.Machine

/-! ## The scan of given payload bytes -/

/-- Where the payload bytes are `P`, none of them a terminator, and then a terminator, `scan` finds it after `P` (R98). -/
theorem scan_eq_bytes_found {rd : Reader} {n : Nat} {P : List Byte} (hlen : P.length < n / 8)
    (hP : ∀ k < P.length, unpackByte rd k = P[k]?) (hne : ∀ v ∈ P, v ≠ term)
    (hterm : unpackByte rd P.length = some term) : scan rd n = some ⟨P, true⟩ :=
  (scan_eq_some_iff ..).2 ⟨hP, hne, hlen, hterm⟩

/-- Where the whole groups' payload bytes are `P`, none of them a terminator, `scan` is exhausted with `P` (R98). -/
theorem scan_eq_bytes_exhausted {rd : Reader} {n : Nat} {P : List Byte} (hlen : P.length = n / 8)
    (hP : ∀ k < P.length, unpackByte rd k = P[k]?) (hne : ∀ v ∈ P, v ≠ term) : scan rd n = some ⟨P, false⟩ :=
  (scan_eq_some_iff ..).2 ⟨hP, hne, hlen⟩

/-- A completed scan has found a terminator exactly when a whole group holds one (R98). -/
theorem foundNul_iff_exists_term {rd : Reader} {n : Nat} {r : Scan} (h : scan rd n = some r) :
    r.foundNul = true ↔ ∃ k < n / 8, unpackByte rd k = some term := by
  obtain ⟨hbytes, hne, hend⟩ := (scan_eq_some_iff ..).1 h
  cases hf : r.foundNul with
  | true =>
    obtain ⟨hlen, hterm⟩ : r.bytes.length < n / 8 ∧ unpackByte rd r.bytes.length = some term := by simpa [hf] using hend
    exact iff_of_true rfl ⟨_, hlen, hterm⟩
  | false =>
    have hlen : r.bytes.length = n / 8 := by simpa [hf] using hend
    refine iff_of_false Bool.false_ne_true ?_
    rintro ⟨k, hk, hterm⟩
    rw [hbytes k (by omega)] at hterm
    exact hne term (List.mem_of_getElem? hterm) rfl

/-! ## The validator on a list -/

/-- The validator compares the first three bytes as a list (R99). -/
theorem validate_iff_take (p : List Byte) (magic : Magic) :
    validate p magic = true ↔ 3 ≤ p.length ∧ p.take 3 = magic.bytes := by
  rw [validate_iff]
  refine and_congr_right fun hlen => ?_
  match p, hlen with
  | a :: b :: c :: _, _ => simp [Magic.bytes]

/-! ## UNHIDE forwards: from what its scan gives to its outcome -/

/-- UNHIDE of a buffer without terminator raises `STEG_BAD_MSG` (R133). -/
theorem exec_unhide_of_exhausted {s : State} {P : List Byte} (hstart : StartOk s)
    (hscan : scan s.pixelReader s.n = some ⟨P, false⟩) :
    exec .unhide s = .next ({ s.decoded ⟨P, false⟩ with outLen := 0 }.finish .unhide (some .badMsg)) :=
  (exec_unhide_eq_next_iff _ _).2 ⟨hstart, _, hscan, .badMsg rfl rfl⟩

/-- UNHIDE raises `STEG_NO_MSG` when the bytes before the terminator do not begin with the token (R134). -/
theorem exec_unhide_of_no_token {s : State} {P : List Byte} (hstart : StartOk s)
    (hscan : scan s.pixelReader s.n = some ⟨P, true⟩) (htoken : ¬(3 ≤ P.length ∧ P.take 3 = s.magic.bytes)) :
    exec .unhide s = .next ({ s.decoded ⟨P, true⟩ with outLen := 0 }.finish .unhide (some .noMsg)) := by
  rw [← validate_iff_take, Bool.not_eq_true] at htoken
  exact (exec_unhide_eq_next_iff _ _).2 ⟨hstart, _, hscan, .noMsg rfl htoken rfl⟩

/-- UNHIDE delivers what stands between the token and the terminator (R135). -/
theorem exec_unhide_of_token {s : State} {P : List Byte} (hstart : StartOk s)
    (hscan : scan s.pixelReader s.n = some ⟨P, true⟩) (hlen : 3 ≤ P.length) (htoken : P.take 3 = s.magic.bytes) :
    exec .unhide s = .next ({ s.decoded ⟨P, true⟩ with
      mout := s.mout.writeBytes 0 (P.drop 3), outLen := P.length - 3 }.finish .unhide none) :=
  (exec_unhide_eq_next_iff _ _).2 ⟨hstart, _, hscan, .message rfl ((validate_iff_take ..).2 ⟨hlen, htoken⟩) rfl⟩

/-! ## UNHIDE backwards: from its outcome to what its scan gave -/

/-- ERR = 4 is the outcome of an exhausted scan and of no other (R133). -/
theorem UnhideOutcome.statusErr_eq_four_iff {s t : State} {r : Scan} (h : UnhideOutcome s t r) :
    statusErr t.status = 4 ↔ r.foundNul = false := by
  cases h with
  | badMsg hf ht => subst ht; simp [errCode, hf]
  | noMsg hf hv ht => subst ht; simp [errCode, hf]
  | message hf hv ht => subst ht; simp [errCode, hf]

/-- ERR = 3 is an outcome of a scan that found a terminator (R134). -/
theorem UnhideOutcome.foundNul_of_statusErr_eq_three {s t : State} {r : Scan} (h : UnhideOutcome s t r)
    (herr : statusErr t.status = 3) : r.foundNul = true := by
  rw [← Bool.not_eq_false, ← h.statusErr_eq_four_iff, herr]
  decide

/-! ## The bytes UNHIDE writes -/

/-- The bytes the scan decoded stand in `ACC` (R132). -/
theorem decoded_acc_read_of_lt (s : State) (r : Scan) {i : Nat} (hi : i < r.bytes.length) :
    (s.decoded r).acc.read i = r.bytes[i]? := by
  rw [decoded_acc, read_writeBytes_zero, if_pos hi]

/-- Behind the bytes the scan decoded `ACC` keeps what it held (R132). -/
theorem decoded_acc_read_of_le (s : State) (r : Scan) {i : Nat} (hi : r.bytes.length ≤ i) :
    (s.decoded r).acc.read i = s.acc.read i := by
  rw [decoded_acc, read_writeBytes_zero, if_neg (by omega)]

/-- Writing all but the first `d` of some bytes from index 0 on: byte `i` is byte `d + i` of them, as far as they go. -/
theorem read_writeBytes_drop (m : Memory) (P : List Byte) (d i : Nat) :
    (m.writeBytes 0 (P.drop d)).read i = if i < P.length - d then P[d + i]? else m.read i := by
  rw [read_writeBytes_zero, List.length_drop, List.getElem?_drop]

end Sys2Proof.Machine
end

section
open Sys2Proof Sys2Proof.Machine

/-- Settles O30: the scan gives `P`, the token stands first, so UNHIDE writes `P` to `ACC` and all of it behind the token to
`MOUT`. -/
theorem unhideReturnsMessage : Obligations.UnhideReturnsMessage := by
  unfold Obligations.UnhideReturnsMessage
  intro s P hstart hlen hP hne hterm hthree htoken
  have hscan := scan_eq_bytes_found hlen hP hne hterm
  refine ⟨_, exec_unhide_of_token hstart hscan hthree htoken, hostView_finish .., rfl, rfl, rfl, fun i hi => ?_,
    fun i hi => ?_, fun i hi => decoded_acc_read_of_lt s _ hi, fun i hi => decoded_acc_read_of_le s _ hi⟩
  · rw [finish_mout, read_writeBytes_drop, if_pos hi]
    exact ⟨rfl, fun hzero => hne _ (List.mem_of_getElem? hzero) rfl⟩
  · rw [finish_mout, read_writeBytes_drop, if_neg (by omega)]

/-- Settles O31: without a terminator the scan is exhausted, which is the one outcome with ERR = 4; below eight bytes there
is no group to scan. -/
theorem unhideBadMsg : Obligations.UnhideBadMsg := by
  unfold Obligations.UnhideBadMsg
  refine ⟨fun s P hstart hlen hP hne => ?_, fun s t hexec => ?_, fun s hstart hn => ?_⟩
  · have hscan := scan_eq_bytes_exhausted hlen hP hne
    exact ⟨_, exec_unhide_of_exhausted hstart hscan, hostView_finish .., rfl, rfl, rfl,
      fun i hi => decoded_acc_read_of_lt s _ hi, fun i hi => decoded_acc_read_of_le s _ hi⟩
  · obtain ⟨-, r, hscan, houtcome⟩ := (exec_unhide_eq_next_iff s t).1 hexec
    rw [houtcome.statusErr_eq_four_iff, ← Bool.not_eq_true, foundNul_iff_exists_term hscan]
    push Not
    rfl
  · have hscan : scan s.pixelReader s.n = some ⟨[], false⟩ :=
      scan_eq_bytes_exhausted (Nat.div_eq_of_lt hn).symm (by simp) (by simp)
    exact ⟨_, exec_unhide_of_exhausted hstart hscan, hostView_finish .., rfl⟩

/-- Settles O32: the scan gives `P` and finds the terminator, and the validator rejects `P`; conversely ERR = 3 is an outcome
of a scan that found a terminator. -/
theorem unhideNoMsg : Obligations.UnhideNoMsg := by
  unfold Obligations.UnhideNoMsg
  refine ⟨fun s P hstart hlen hP hne hterm htoken => ?_, fun s t hexec herr => ?_⟩
  · have hscan := scan_eq_bytes_found hlen hP hne hterm
    exact ⟨_, exec_unhide_of_no_token hstart hscan htoken, hostView_finish .., rfl, rfl, rfl⟩
  · obtain ⟨-, r, hscan, houtcome⟩ := (exec_unhide_eq_next_iff s t).1 hexec
    exact (foundNul_iff_exists_term hscan).1 (houtcome.foundNul_of_statusErr_eq_three herr)

end

section
/-! PROOFS. Admission: a command starts exactly when R169 admits it, ends with OK or one of the four kinds, and its word is
taken from the host exactly then. -/

namespace Sys2Proof.Machine

/-! ## HIDE -/

/-- Whatever HIDE's outcome, its message was written, and so were its pixels if the frame fits (R110, R169). -/
theorem HideOutcome.written {s t : State} (h : HideOutcome s t) :
    Written s.min s.msgLen ∧ (capacityOk s.msgLen s.n = true → Written s.src s.n) := by
  have hmin {m : List Byte} (hm : s.message = some m) : Written s.min s.msgLen := (written_iff_readBytes ..).2 ⟨m, hm⟩
  have hsrc {px : List Byte} (hp : s.pixels = some px) : Written s.src s.n := (written_iff_readBytes ..).2 ⟨px, hp⟩
  cases h with
  | tooBig m hm hc => exact ⟨hmin hm, fun hfit => absurd ((capacityOk_iff ..).1 hfit) hc.not_ge⟩
  | marked m px hm hc hp => exact ⟨hmin hm, fun _ => hsrc hp⟩
  | embedded m px hm hc hp => exact ⟨hmin hm, fun _ => hsrc hp⟩

/-- HIDE of a frame that fits, into a source that carries the token, raises `STEG_MSG` (R114). -/
theorem exec_hide_of_marked {s : State} (hadm : Admitted .hide s) (hfit : 8 * (s.msgLen + 4) ≤ s.n)
    (hmarked : magicPresent s.pixelReader s.n s.magic = true) :
    exec .hide s = .next (s.finish .hide (some .msg)) := by
  obtain ⟨hstart, hsrc⟩ := hadm
  obtain ⟨m, hm⟩ := exists_message hstart
  obtain ⟨px, hpx⟩ := (written_iff_readBytes s.src s.n).1 (hsrc ((capacityOk_iff _ _).2 hfit))
  obtain ⟨hok, hlmax, -⟩ := hstart
  exact (exec_hide_eq_next_iff _ _).2 ⟨⟨hok, hlmax⟩, .marked m px hm hfit hpx hmarked rfl⟩

/-- HIDE starts exactly when it is admitted (R169). -/
theorem admitted_hide_iff (s : State) : Admitted .hide s ↔ ∃ t, exec .hide s = .next t := by
  constructor
  · intro hadm
    by_cases hfit : 8 * (s.msgLen + 4) ≤ s.n
    · cases hd : magicPresent s.pixelReader s.n s.magic with
      | true => exact ⟨_, exec_hide_of_marked hadm hfit hd⟩
      | false =>
        obtain ⟨m, px, -, -, hexec⟩ := exec_hide_of_unmarked hadm hfit hd
        exact ⟨_, hexec⟩
    · exact ⟨_, exec_hide_of_not_fits hadm.1 (not_le.1 hfit)⟩
  · rintro ⟨t, hexec⟩
    obtain ⟨⟨hok, hlmax⟩, houtcome⟩ := (exec_hide_eq_next_iff s t).1 hexec
    obtain ⟨hmin, hsrc⟩ := houtcome.written
    exact ⟨⟨hok, hlmax, hmin⟩, hsrc⟩

/-! ## UNHIDE -/

/-- The scan completes exactly when the groups up to and with the terminator's are written, or every whole group when there
is none (R98, R169). -/
theorem scan_isSome_iff_groupWritten (s : State) :
    (scan s.pixelReader s.n).isSome ↔ ∀ k < s.n / 8, (∀ j < k, PayloadBefore s j) → GroupWritten s k := by
  simp only [scan, scanGroups_isSome_iff, Nat.zero_add, unpackByte_isSome_iff]
  rfl

/-- Whatever the scan gave, UNHIDE has an outcome (R130). -/
theorem exists_unhideOutcome (s : State) (r : Scan) : ∃ t, UnhideOutcome s t r := by
  cases hf : r.foundNul with
  | false => exact ⟨_, .badMsg hf rfl⟩
  | true =>
    cases hv : validate r.bytes s.magic with
    | false => exact ⟨_, .noMsg hf hv rfl⟩
    | true => exact ⟨_, .message hf hv rfl⟩

/-- UNHIDE starts exactly when it is admitted (R169). -/
theorem admitted_unhide_iff (s : State) : Admitted .unhide s ↔ ∃ t, exec .unhide s = .next t := by
  show (StartOk s ∧ _) ↔ _
  rw [← scan_isSome_iff_groupWritten, Option.isSome_iff_exists]
  simp only [exec_unhide_eq_next_iff]
  constructor
  · rintro ⟨hok, r, hscan⟩
    obtain ⟨t, houtcome⟩ := exists_unhideOutcome s r
    exact ⟨t, hok, r, hscan, houtcome⟩
  · rintro ⟨t, hok, r, hscan, -⟩
    exact ⟨hok, r, hscan⟩

/-! ## Both commands -/

/-- A command starts exactly when it is admitted (R169). -/
theorem admitted_iff_exists_next (i : Instr) (s : State) : Admitted i s ↔ ∃ t, exec i s = .next t := by
  cases i with
  | hide => exact admitted_hide_iff s
  | unhide => exact admitted_unhide_iff s

/-- A command that is not admitted is refused (R168, R169): it cannot fault. -/
theorem exec_refused_of_not_admitted {i : Instr} {s : State} (h : ¬Admitted i s) : ∃ r, exec i s = .refused r := by
  cases hexec : exec i s with
  | next t => exact absurd ((admitted_iff_exists_next i s).2 ⟨t, hexec⟩) h
  | fault f => exact absurd hexec (exec_ne_fault i s f)
  | refused r => exact ⟨r, rfl⟩

/-- A command is admitted only while none runs (R169). -/
theorem Admitted.resting {i : Instr} {s : State} (h : Admitted i s) : s.resting = true := by
  cases i with
  | hide =>
    obtain ⟨⟨⟨hrest, -⟩, -⟩, -⟩ := h
    exact hrest
  | unhide =>
    obtain ⟨⟨hrest, -⟩, -⟩ := h
    exact hrest

/-- The end of a command leaves `STATUS` at the byte of its result (R27, R156). -/
theorem status_mem_of_finish {s t : State} {i : Instr} {e : Option ErrKind} (ht : t = s.finish i e)
    (hlegal : statusByte .done e i ∈ statusOfPhase .done) : t.status ∈ statusOfPhase .done := by
  rwa [ht, finish_status]

/-- A completed command leaves `STATUS` at OK or at one of its own kinds, with `STATE` at `DONE` (R27, R169). -/
theorem exec_status_mem {i : Instr} {s t : State} (h : exec i s = .next t) : t.status ∈ statusOfPhase .done := by
  cases i with
  | hide =>
    obtain ⟨-, houtcome⟩ := (exec_hide_eq_next_iff s t).1 h
    cases houtcome with
    | tooBig _ _ _ ht => exact status_mem_of_finish ht (by decide)
    | marked _ _ _ _ _ _ ht => exact status_mem_of_finish ht (by decide)
    | embedded _ _ _ _ _ _ ht => exact status_mem_of_finish ht (by decide)
  | unhide =>
    obtain ⟨-, r, -, houtcome⟩ := (exec_unhide_eq_next_iff s t).1 h
    cases houtcome with
    | badMsg _ ht => exact status_mem_of_finish ht (by decide)
    | noMsg _ _ ht => exact status_mem_of_finish ht (by decide)
    | message _ _ ht => exact status_mem_of_finish ht (by decide)

/-! ## The host's write of a command word -/

/-- The word of a command that starts is taken, and is then pending (R26, R169). -/
theorem hostWriteCmd_of_next {c : Byte} {i : Instr} {s t : State} (hdec : decode c = .ok i) (hexec : exec i s = .next t) :
    hostWriteCmd c.toNat s = .next { s with cmd := c } := by
  simp only [hostWriteCmd, if_pos c.isLt, BitVec.ofNat_toNat, BitVec.setWidth_eq, hdec, hexec]

/-- The word of a command that is refused is refused with the same reason (R168, R169). -/
theorem hostWriteCmd_of_refused {c : Byte} {i : Instr} {s : State} {r : Refusal} (hdec : decode c = .ok i)
    (hexec : exec i s = .refused r) : hostWriteCmd c.toNat s = .refused r := by
  simp only [hostWriteCmd, if_pos c.isLt, BitVec.ofNat_toNat, BitVec.setWidth_eq, hdec, hexec]

/-- The host's write of an admitted command's word is taken (R169). -/
theorem hostMove_writeCmd_of_admitted {c : Byte} {i : Instr} {s : State} (hdec : decode c = .ok i) (hadm : Admitted i s) :
    hostMove (.writeReg 0 c.toNat) s = .next { s with cmd := c } := by
  obtain ⟨t, hexec⟩ := (admitted_iff_exists_next i s).1 hadm
  rw [hostMove_writeCmd_of_resting hadm.resting, hostWriteCmd_of_next hdec hexec]

/-- Every other write of `CMD` is refused: while a command runs, for a reserved word, and for a command that is not admitted
(R77, R168, R169). -/
theorem hostMove_writeCmd_refused {c : Byte} {s : State} (h : ¬∃ i, decode c = .ok i ∧ Admitted i s) :
    ∃ r, hostMove (.writeReg 0 c.toNat) s = .refused r := by
  cases hs : s.resting with
  | false => exact ⟨_, hostMove_writeCmd_of_running hs _⟩
  | true =>
    rw [hostMove_writeCmd_of_resting hs]
    cases hdec : decode c with
    | error e =>
      obtain ⟨d⟩ := e
      exact ⟨_, hostWriteCmd_of_reserved hdec s⟩
    | ok i =>
      obtain ⟨r, hexec⟩ := exec_refused_of_not_admitted fun hadm => h ⟨i, hdec, hadm⟩
      exact ⟨r, hostWriteCmd_of_refused hdec hexec⟩

end Sys2Proof.Machine
end

section
open Sys2Proof Sys2Proof.Machine

/-- Settles O40: a command's outcomes need exactly the operands R169 names and cover every case, no command faults, and the
host's write of `CMD` asks the command itself. -/
theorem admissionExact : Obligations.AdmissionExact := by
  unfold Obligations.AdmissionExact
  refine ⟨admitted_iff_exists_next, fun i s => exec_refused_of_not_admitted, fun i s t => exec_status_mem, fun s c =>
    ⟨?_, hostMove_writeCmd_refused⟩⟩
  rintro ⟨i, hdec, hadm⟩
  exact ⟨_, hostMove_writeCmd_of_admitted hdec hadm⟩

end

section
/-! PROOFS. The first steps of the step-level machine: START (R191) and the `CHECK_CAPACITY` step of HIDE (R192). -/

namespace Sys2Proof.Machine

/-! ## START -/

/-- START of an admitted command is taken (R169, R191). -/
theorem startCommand_of_admitted {i : Instr} {s : State} (hadm : Admitted i s) :
    startCommand i s = .next (s.started i) := by
  obtain ⟨t, hexec⟩ := (admitted_iff_exists_next i s).1 hadm
  simp only [startCommand, hexec]

/-- START of any other command is refused (R169, R191). -/
theorem startCommand_refused_of_not_admitted {i : Instr} {s : State} (hadm : ¬Admitted i s) :
    ∃ r, startCommand i s = .refused r := by
  obtain ⟨r, hexec⟩ := exec_refused_of_not_admitted hadm
  exact ⟨r, by simp only [startCommand, hexec]⟩

/-! ## `CHECK_CAPACITY` -/

/-- A frame that does not fit ends HIDE with `STEG_TOO_BIG` (R192). -/
theorem engineStep_checkCapacity_of_not_fits {s : State} (hp : s.phase = .checkCapacity)
    (hbig : s.n < 8 * (s.msgLen + 4)) :
    engineStep s = .next ({ s with flen := s.msgLen + 4 }.finish .hide (some .tooBig)) := by
  simp only [engineStep, hp, checkCapacityStep]
  exact if_pos hbig

/-- A frame that fits is followed by the check for the token (R192). -/
theorem engineStep_checkCapacity_of_fits {s : State} (hp : s.phase = .checkCapacity)
    (hfit : 8 * (s.msgLen + 4) ≤ s.n) :
    engineStep s = .next { s with flen := s.msgLen + 4, phase := .checkMagic } := by
  simp only [engineStep, hp, checkCapacityStep]
  exact if_neg (Nat.not_lt.2 hfit)

end Sys2Proof.Machine
end

section
open Sys2Proof Sys2Proof.Machine

/-- Settles O55: START asks the architectural level whether the command is admitted; `0x21` and `0x41` are the values of
`STATUS` for a running HIDE and a running UNHIDE. -/
theorem startStep : Obligations.StartStep := by
  unfold Obligations.StartStep
  obtain ⟨-, -, -, -, -, -, hbusyHide, hbusyUnhide⟩ := status_values
  refine fun s => ⟨fun hadm => ?hide, fun hadm => ?unhide, fun i hadm => startCommand_refused_of_not_admitted hadm⟩
  case hide => rw [startCommand_of_admitted hadm, State.started, hbusyHide]
  case unhide => rw [startCommand_of_admitted hadm, State.started, hbusyUnhide]

/-- Settles O56: the two branches of the capacity test; `0x26` is the value of `STATUS` for HIDE ended with ERR = 1. -/
theorem checkCapacityStep : Obligations.CheckCapacityStep := by
  unfold Obligations.CheckCapacityStep
  obtain ⟨-, htooBig, -⟩ := status_values
  refine fun s hp => ⟨fun hbig => ?notFits, engineStep_checkCapacity_of_fits hp⟩
  case notFits => rw [engineStep_checkCapacity_of_not_fits hp hbig, State.finish, htooBig]

end

section
/-! PROOFS. Reading back what was written: one bit (R100), a frame (R101), the detector (R97, R102), the validator (R99) and
the encoding round trip (R103). -/

namespace Sys2Proof.Machine

/-! ## One bit -/

/-- Writing the LSB leaves the upper seven bits (R92, R100). -/
@[simp] theorem lsbWrite_ushiftRight_one (p : Byte) (b : Bool) : lsbWrite p b >>> 1 = p >>> 1 := by revert p b; decide

/-- The last write of a bit wins (R100). -/
@[simp] theorem lsbWrite_lsbWrite (p : Byte) (b c : Bool) : lsbWrite (lsbWrite p b) c = lsbWrite p c := by
  apply BitVec.eq_of_toNat_eq
  have := b.toNat_lt
  simp only [toNat_lsbWrite]
  omega

/-- Embedding leaves the upper seven bits of a pixel byte (R95, R101). -/
@[simp] theorem embedByte_ushiftRight_one (f : List Byte) (i : Nat) (p : Byte) : embedByte f i p >>> 1 = p >>> 1 := by
  unfold embedByte
  split
  · exact lsbWrite_ushiftRight_one ..
  · rfl

/-! ## The detector and the validator, both as a comparison with the token byte by byte -/

/-- Three consecutive indices, one by one. -/
theorem forall_lt_three_iff {P : Nat → Prop} : (∀ k < 3, P k) ↔ P 0 ∧ P 1 ∧ P 2 := by
  constructor
  · intro h
    exact ⟨h 0 (by omega), h 1 (by omega), h 2 (by omega)⟩
  · rintro ⟨h0, h1, h2⟩ k hk
    match k, hk with
    | 0, _ => exact h0
    | 1, _ => exact h1
    | 2, _ => exact h2

/-- The detector compares payload bytes 0 to 2 with the token (R97). -/
theorem magicPresent_iff_forall (rd : Reader) (n : Nat) (magic : Magic) :
    magicPresent rd n magic = true ↔ 24 ≤ n ∧ ∀ k < 3, unpackByte rd k = magic.bytes[k]? := by
  rw [magicPresent_iff, forall_lt_three_iff]
  rfl

/-- The validator compares decoded bytes 0 to 2 with the token (R99). -/
theorem validate_iff_forall (p : List Byte) (magic : Magic) :
    validate p magic = true ↔ 3 ≤ p.length ∧ ∀ k < 3, p[k]? = magic.bytes[k]? := by
  rw [validate_iff, forall_lt_three_iff]
  rfl

/-- A token is detected on 24 equal LSBs only if it is three times the byte they unpack to (R97). -/
theorem magic_eq_of_const_lsb {rd : Reader} {n : Nat} {magic : Magic} (b : Bool)
    (h : ∀ i < 24, (rd i).map lsbRead = some b) (hd : magicPresent rd n magic = true) :
    magic = ⟨if b then 0xFF else 0x00, if b then 0xFF else 0x00, if b then 0xFF else 0x00⟩ := by
  obtain ⟨-, h0, h1, h2⟩ := (magicPresent_iff ..).1 hd
  have hk : ∀ k < 3, unpackByte rd k = some (if b then 0xFF else 0x00) := fun k hk =>
    unpackByte_of_const_lsb b fun j hj => h _ (by omega)
  rw [hk _ (by decide), Option.some.injEq] at h0 h1 h2
  obtain ⟨b0, b1, b2⟩ := magic
  exact (Magic.mk.injEq ..).mpr ⟨h0.symm, h1.symm, h2.symm⟩

/-- A terminator is no token byte, so a scan that stops on a detected token has passed all of it (R97, R98). -/
theorem three_le_length_of_magicPresent {rd : Reader} {n : Nat} {magic : Magic} {P : List Byte}
    (hmagic : ∀ v ∈ magic.bytes, v ≠ term) (hterm : unpackByte rd P.length = some term)
    (hd : magicPresent rd n magic = true) : 3 ≤ P.length := by
  obtain ⟨-, htoken⟩ := (magicPresent_iff_forall ..).1 hd
  by_contra hlt
  rw [htoken _ (by omega)] at hterm
  exact hmagic term (List.mem_of_getElem? hterm) rfl

/-- Under a token of non-zero bytes the validator accepts what a scan found exactly where the detector does (R99). -/
theorem validate_eq_magicPresent {rd : Reader} {n : Nat} {magic : Magic} {r : Scan} (hmagic : ∀ v ∈ magic.bytes, v ≠ term)
    (hscan : scan rd n = some r) (hf : r.foundNul = true) : validate r.bytes magic = magicPresent rd n magic := by
  obtain ⟨hbytes, -, hend⟩ := (scan_eq_some_iff ..).1 hscan
  obtain ⟨hlen, hterm⟩ : r.bytes.length < n / 8 ∧ unpackByte rd r.bytes.length = some term := by simpa [hf] using hend
  rw [Bool.eq_iff_iff]
  constructor
  · intro hv
    obtain ⟨hthree, htoken⟩ := (validate_iff_forall ..).1 hv
    exact (magicPresent_iff_forall ..).2 ⟨by omega, fun k hk => by rw [hbytes k (by omega), htoken k hk]⟩
  · intro hd
    have hthree := three_le_length_of_magicPresent hmagic hterm hd
    obtain ⟨-, htoken⟩ := (magicPresent_iff_forall ..).1 hd
    exact (validate_iff_forall ..).2 ⟨hthree, fun k hk => by rw [← hbytes k (by omega), htoken k hk]⟩

/-! ## A buffer that carries a frame -/

/-- The frame's payload bytes stand in the buffer, whole groups from pixel byte 0 on (R101). -/
def Carries (rd : Reader) (n : Nat) (f : List Byte) : Prop :=
  8 * f.length ≤ n ∧ ∀ k < f.length, unpackByte rd k = f[k]?

/-- An embedded frame is carried (R101). -/
theorem carries_embed {px f : List Byte} (hfit : 8 * f.length ≤ px.length) :
    Carries (listReader (embed px f)) px.length f :=
  ⟨hfit, fun k hk => by rw [unpackByte_embed hfit hk, List.getElem?_eq_getElem hk]⟩

/-- Readers that agree below `N` carry the same frames. -/
theorem Carries.congr {rd rd' : Reader} {n : Nat} {f : List Byte} (h : Carries rd n f) (heq : ∀ i < n, rd' i = rd i) :
    Carries rd' n f := by
  obtain ⟨hfit, hbytes⟩ := h
  refine ⟨hfit, fun k hk => ?_⟩
  rw [← hbytes k hk]
  exact unpackByte_congr fun j hj => by rw [heq _ (by omega)]

/-- The scan of a carried frame stops at the frame's first 0x00 byte (R74, R98, R138). -/
theorem Carries.scan_eq {rd : Reader} {n : Nat} {P rest : List Byte} (h : Carries rd n (P ++ term :: rest))
    (hP : ∀ v ∈ P, v ≠ term) : scan rd n = some ⟨P, true⟩ := by
  obtain ⟨hfit, hbytes⟩ := h
  rw [List.length_append, List.length_cons] at hfit hbytes
  refine scan_eq_bytes_found (by omega) (fun k hk => ?_) hP ?_
  · rw [hbytes k (by omega), List.getElem?_append_left hk]
  · rw [hbytes _ (by omega), List.getElem?_append_right le_rfl, Nat.sub_self, List.getElem?_cons_zero]

/-- A carried frame's token is detected (R102). -/
theorem Carries.magicPresent {rd : Reader} {n : Nat} {magic : Magic} {m : List Byte} (h : Carries rd n (frame magic m)) :
    magicPresent rd n magic = true := by
  obtain ⟨hfit, hbytes⟩ := h
  rw [length_frame] at hfit hbytes
  refine (magicPresent_iff_forall ..).2 ⟨by omega, fun k hk => ?_⟩
  rw [hbytes k (by omega), frame, List.append_assoc, List.getElem?_append_left hk]

end Sys2Proof.Machine
end

section
open Sys2Proof Sys2Proof.Machine

/-- Settles O18: the embedded buffer carries the frame, whose first 0x00 byte is its terminator, so the scan stops there, on
the token and the message. -/
theorem frameRoundTrip : Obligations.FrameRoundTrip := by
  unfold Obligations.FrameRoundTrip
  intro px m magic hm hmagic hcap
  have hfit : 8 * (frame magic m).length ≤ px.length := by rw [length_frame]; exact (capacityOk_iff ..).1 hcap
  refine ⟨(carries_embed hfit).scan_eq fun v hv => ?_, (validate_iff_take ..).2 ⟨by simp [Magic.bytes], rfl⟩, rfl⟩
  exact (List.mem_append.1 hv).elim (hmagic v) (hm v)

/-- Settles O16: below the frame's length the payload bytes are the frame's, from there on the source's; a pixel byte changes
in its LSB at most. -/
theorem embedReadBack : Obligations.EmbedReadBack := by
  unfold Obligations.EmbedReadBack
  intro px f hfit
  refine ⟨(carries_embed hfit).2, fun k hk => unpackByte_embed_past hk, length_embed px f, fun i => ?_⟩
  rw [getElem?_embed, Option.map_map]
  exact congrArg (Option.map · _) (funext (embedByte_ushiftRight_one f i))

/-- Settles O17: an embedded frame is carried, and its first three payload bytes are the token. -/
theorem detectorAfterEmbed : Obligations.DetectorAfterEmbed := by
  unfold Obligations.DetectorAfterEmbed
  intro px m magic hfit
  exact (carries_embed hfit).magicPresent

/-- Settles O20: the detector compares three payload bytes, which depend on their groups' LSBs only; equal LSBs unpack to
0x00 or 0xFF. -/
theorem magicDetector : Obligations.MagicDetector := by
  unfold Obligations.MagicDetector
  exact fun rd n magic => ⟨magicPresent_iff rd n magic, fun rd' h => (magicPresent_congr n magic fun _ => h).symm,
    magic_eq_of_const_lsb false, magic_eq_of_const_lsb true⟩

/-- Settles O22: the validator compares the first three bytes; what the scan decoded before a terminator are the payload bytes
the detector compares. -/
theorem framingValidator : Obligations.FramingValidator := by
  unfold Obligations.FramingValidator
  exact ⟨validate_iff_take, fun rd n magic r => validate_eq_magicPresent⟩

/-- Settles O14: the four laws are a lemma each. -/
theorem lsbReadAfterWrite : Obligations.LsbReadAfterWrite := by
  unfold Obligations.LsbReadAfterWrite
  exact fun p b c => ⟨lsbRead_lsbWrite p b, lsbWrite_ushiftRight_one p b, lsbWrite_lsbWrite p b c, lsbWrite_eq_self rfl⟩

end

section
/-! PROOFS. The invariants of the machine: canonical memory, legal `STATUS` (R27), outputs (R35), capacities (R32, R139) and the
pending command (R169), each kept by every step at either level. -/

namespace Sys2Proof.Machine

/-! ## An induction over steps, packaged -/

/-- `P` is kept by everything one step of the machine, at either level, is made of: a command, START, a move of the engine and
a move of the host. -/
structure KeptByMoves (P : State → Prop) : Prop where
  cmd : ∀ {s : State} (c : Byte), P s → P { s with cmd := c }
  inbox : ∀ {s : State} (ms : List HostMove), P s → P { s with inbox := ms }
  command : ∀ {i : Instr} {s t : State}, P s → exec i s = .next t → P t
  start : ∀ {i : Instr} {s t : State}, P s → exec i s = .next t → P (s.started i)
  engine : ∀ {s t : State}, P s → EngineEffect s t → P t
  host : ∀ {s t : State}, P s → HostEffect s t → P t

/-- What every move keeps, every step at either level keeps. -/
theorem KeptByMoves.step_keeps {P : State → Prop} (h : KeptByMoves P) {s t : State} (hP : P s)
    (hstep : step s = .next t ∨ fineStep s = .next t) : P t := by
  have hmove {accept : Instr → State → Result} (haccept : ∀ i u, P u → accept i u = .next t → P t)
      (hadv : advance accept s = .next t) : P t := by
    rcases advance_eq_next hadv with ⟨i, -, ht⟩ | ⟨-, ht⟩ | ⟨-, m, rest, -, ht⟩
    · exact haccept i _ (h.cmd 0 hP) ht
    · exact h.engine hP (engineStep_eq_next ht)
    · exact h.host (h.inbox rest hP) ht
  rcases hstep with hstep | hstep
  · exact hmove (fun i u hu hexec => h.command hu hexec) hstep
  · refine hmove (fun i u hu hstart => ?_) hstep
    obtain ⟨rfl, v, hexec⟩ := startCommand_eq_next hstart
    exact h.start hu hexec

/-- A completed command leaves the engine in `DONE` (R110, R130). -/
theorem exec_phase {i : Instr} {s t : State} (h : exec i s = .next t) : t.phase = .done := by
  cases i with
  | hide =>
    obtain ⟨-, houtcome⟩ := (exec_hide_eq_next_iff s t).1 h
    obtain ⟨_, _, _, rfl⟩ | ⟨_, _, _, _, _, _, rfl⟩ | ⟨_, _, _, _, _, _, rfl⟩ := houtcome <;> rfl
  | unhide =>
    obtain ⟨-, r, -, houtcome⟩ := (exec_unhide_eq_next_iff s t).1 h
    obtain ⟨_, rfl⟩ | ⟨_, _, rfl⟩ | ⟨_, _, rfl⟩ := houtcome <;> rfl

/-! ## Canonical memory -/

/-- A command writes its results byte by byte, which keeps every buffer canonical. -/
theorem exec_memoryInv {i : Instr} {s t : State} (h : MemoryInv s) (hexec : exec i s = .next t) : MemoryInv t := by
  obtain ⟨hsrc, hdst, hmin, hmout, hacc⟩ := h
  cases i with
  | hide =>
    obtain ⟨-, houtcome⟩ := (exec_hide_eq_next_iff s t).1 hexec
    cases houtcome with
    | tooBig _ _ _ ht => subst ht; exact ⟨hsrc, hdst, hmin, hmout, hacc⟩
    | marked _ _ _ _ _ _ ht => subst ht; exact ⟨hsrc, hdst, hmin, hmout, hacc⟩
    | embedded _ _ _ _ _ _ ht => subst ht; exact ⟨hsrc, writeBytes_wf _ _ hdst, hmin, hmout, hacc⟩
  | unhide =>
    obtain ⟨-, r, -, houtcome⟩ := (exec_unhide_eq_next_iff s t).1 hexec
    have hacc' := writeBytes_wf 0 r.bytes hacc
    cases houtcome with
    | badMsg _ ht => subst ht; exact ⟨hsrc, hdst, hmin, hmout, hacc'⟩
    | noMsg _ _ ht => subst ht; exact ⟨hsrc, hdst, hmin, hmout, hacc'⟩
    | message _ _ ht => subst ht; exact ⟨hsrc, hdst, hmin, writeBytes_wf _ _ hmout, hacc'⟩

/-- A move of the engine writes `DST`, `ACC` or `MOUT` byte by byte. -/
theorem EngineEffect.memoryInv {s t : State} (h : MemoryInv s) (heff : EngineEffect s t) : MemoryInv t := by
  obtain ⟨hsrc, hdst, hmin, hmout, hacc⟩ := id h
  cases heff with
  | writes _ _ _ _ _ _ _ ht => subst ht; exact ⟨hsrc, write_wf _ _ hdst, hmin, hmout, hacc⟩
  | writesLast _ _ _ _ _ _ _ ht => subst ht; exact ⟨hsrc, write_wf _ _ hdst, hmin, hmout, hacc⟩
  | delivers _ _ _ _ _ ht => subst ht; exact ⟨hsrc, hdst, hmin, writeBytes_wf _ _ hmout, hacc⟩
  | shifts _ _ p _ _ ht =>
    subst ht
    rcases shifted_cases s p with ⟨_, ht⟩ | ⟨_, _, ht⟩ | ⟨_, _, ht⟩ <;> rw [ht]
    · exact h
    · exact h
    · exact ⟨hsrc, hdst, hmin, hmout, write_wf _ _ hacc⟩
  | waits _ ht | tooBig _ _ ht | fits _ _ ht | probes _ _ _ _ _ _ ht | marked _ _ _ _ _ _ _ ht
  | unmarked _ _ _ _ _ _ _ ht | exhausts _ _ _ _ ht | rejects _ _ ht => subst ht; exact h

/-- A move of the host writes `SRC` or `MIN` byte by byte. -/
theorem HostEffect.memoryInv {s t : State} (h : MemoryInv s) (heff : HostEffect s t) : MemoryInv t := by
  obtain ⟨hsrc, hdst, hmin, hmout, hacc⟩ := id h
  cases heff with
  | resets ht => subst ht; exact reset_memoryInv
  | setsSrc _ _ _ _ ht => subst ht; exact ⟨write_wf _ _ hsrc, hdst, hmin, hmout, hacc⟩
  | setsMin _ _ _ _ ht => subst ht; exact ⟨hsrc, hdst, write_wf _ _ hmin, hmout, hacc⟩
  | copies _ _ _ _ ht => subst ht; exact ⟨writeBytes_wf _ _ hsrc, hdst, hmin, hmout, hacc⟩
  | reads _ ht | nothing ht | asks _ _ _ _ _ _ ht | setsN _ _ ht | setsMsgLen _ _ ht | setsMagic _ _ ht =>
    subst ht; exact h

/-- Every move keeps every buffer canonical. -/
theorem memoryInv_kept : KeptByMoves MemoryInv where
  cmd _ h := h
  inbox _ h := h
  command := exec_memoryInv
  start h _ := h
  engine := EngineEffect.memoryInv
  host := HostEffect.memoryInv

/-! ## Legal `STATUS` -/

/-- START writes the `BUSY` value its phase allows (R27, R191). -/
theorem started_statusInv (s : State) (i : Instr) : StatusInv (s.started i) := by
  cases i
  · show statusByte .busy none .hide ∈ statusOfPhase .checkCapacity
    decide
  · show statusByte .busy none .unhide ∈ statusOfPhase .streamBits
    decide

/-- While the stream runs, `STATUS.OP` tells which of the two `BUSY` values `STATUS` holds (R27). -/
theorem status_eq_of_streamBits {s : State} (h : StatusInv s) (hp : s.phase = .streamBits) :
    (statusOp s.status = 1 → s.status = 0x21) ∧ (statusOp s.status = 2 → s.status = 0x41) := by
  have hmem : s.status ∈ statusOfPhase .streamBits := hp ▸ h
  rcases List.mem_pair.1 hmem with h | h <;> rw [h] <;> decide

/-- In `CHECK_MAGIC` `STATUS` is that of a running HIDE (R27). -/
theorem status_eq_of_checkMagic {s : State} (h : StatusInv s) (hp : s.phase = .checkMagic) : s.status = 0x21 := by
  have hmem : s.status ∈ statusOfPhase .checkMagic := hp ▸ h
  exact List.mem_singleton.1 hmem

/-- A machine at rest is in `IDLE` or `DONE` (R27, R40). -/
theorem phase_of_resting {s : State} (h : StatusInv s) (hs : s.resting = true) : s.phase = .idle ∨ s.phase = .done := by
  have hall : ∀ p, ∀ b ∈ statusOfPhase p, (statusState b == 0 || statusState b == 2) = true → p = .idle ∨ p = .done := by
    intro p
    cases p <;> decide
  exact hall _ _ h hs

/-- A move of the engine that ends the command, or changes the phase, leaves `STATUS` legal (R27). -/
theorem EngineEffect.statusInv {s t : State} (h : StatusInv s) (heff : EngineEffect s t) : StatusInv t := by
  cases heff with
  | waits _ ht => subst ht; exact h
  | tooBig _ _ ht => subst ht; show statusByte .done (some .tooBig) .hide ∈ statusOfPhase .done; decide
  | marked _ _ _ _ _ _ _ ht => subst ht; show statusByte .done (some .msg) .hide ∈ statusOfPhase .done; decide
  | writesLast _ _ _ _ _ _ _ ht => subst ht; show statusByte .done none .hide ∈ statusOfPhase .done; decide
  | exhausts _ _ _ _ ht => subst ht; show statusByte .done (some .badMsg) .unhide ∈ statusOfPhase .done; decide
  | rejects _ _ ht => subst ht; show statusByte .done (some .noMsg) .unhide ∈ statusOfPhase .done; decide
  | delivers _ _ _ _ _ ht => subst ht; show statusByte .done none .unhide ∈ statusOfPhase .done; decide
  | fits hp _ ht =>
    subst ht
    have hmem : s.status ∈ statusOfPhase .checkCapacity := hp ▸ h
    exact hmem
  | probes _ _ _ _ _ _ ht => subst ht; exact h
  | unmarked hp _ _ _ _ _ _ ht =>
    subst ht
    show s.status ∈ statusOfPhase .streamBits
    rw [status_eq_of_checkMagic h hp]
    decide
  | writes _ _ _ _ _ _ _ ht => subst ht; exact h
  | shifts hp ho p _ _ ht =>
    subst ht
    rcases shifted_cases s p with ⟨_, ht⟩ | ⟨_, _, ht⟩ | ⟨_, _, ht⟩ <;> rw [ht]
    · exact h
    · show s.status ∈ statusOfPhase .validate
      rw [(status_eq_of_streamBits h hp).2 ho]
      decide
    · exact h

/-- A move of the host leaves `STATUS` and `PHASE`, or resets both (R25, R180). -/
theorem HostEffect.statusInv {s t : State} (h : StatusInv s) (heff : HostEffect s t) : StatusInv t := by
  cases heff with
  | resets ht => subst ht; show (0x00 : Byte) ∈ statusOfPhase .idle; decide
  | reads _ ht | nothing ht | asks _ _ _ _ _ _ ht | setsN _ _ ht | setsMsgLen _ _ ht | setsMagic _ _ ht
  | setsSrc _ _ _ _ ht | setsMin _ _ _ _ ht | copies _ _ _ _ ht => subst ht; exact h

/-- Every move keeps `STATUS` legal. -/
theorem statusInv_kept : KeptByMoves StatusInv where
  cmd _ h := h
  inbox _ h := h
  command _ hexec := show _ ∈ statusOfPhase _ from exec_phase hexec ▸ exec_status_mem hexec
  start _ _ := started_statusInv ..
  engine := EngineEffect.statusInv
  host := HostEffect.statusInv

/-! ## Outputs -/

/-- Bytes other than 0x00 bring no 0x00 into a buffer. -/
theorem noZero_writeBytes {m : Memory} {i : Nat} {vs : List Byte} (hm : NoZero m) (hv : ∀ v ∈ vs, v ≠ term) :
    NoZero (m.writeBytes i vs) := forall_writeBytes hm fun _ v hj => hv v (List.mem_of_getElem? hj)

/-- A byte other than 0x00 brings no 0x00 into a buffer. -/
theorem noZero_write {m : Memory} {i : Nat} {v : Byte} (hm : NoZero m) (hv : v ≠ term) : NoZero (m.write i v) :=
  noZero_writeBytes (vs := [v]) hm (by simpa using hv)

/-- Bytes written from index 0 on have values. -/
theorem written_writeBytes {m : Memory} (vs : List Byte) : Written (m.writeBytes 0 vs) vs.length := fun i hi => by
  rw [read_writeBytes_zero, if_pos hi, List.getElem?_eq_getElem hi]
  rfl

/-- A buffer without 0x00 bytes reads out as none. -/
theorem ne_term_of_readBytes {m : Memory} {i len : Nat} {vs : List Byte} (hm : NoZero m) (h : m.readBytes i len = some vs) :
    ∀ v ∈ vs, v ≠ term := by
  obtain ⟨hlen, hread⟩ := (readBytes_eq_some_iff ..).1 h
  intro v hv
  obtain ⟨j, hj, rfl⟩ := List.getElem_of_mem hv
  have hr := hread j (by omega)
  rw [List.getElem?_eq_getElem hj] at hr
  exact hm _ (mem_of_read hr)

/-- UNHIDE accumulates and delivers bytes before the terminator only (R35, R130). -/
theorem exec_outputInv {i : Instr} {s t : State} (h : OutputInv s) (hexec : exec i s = .next t) : OutputInv t := by
  obtain ⟨hacc, hmout, hout⟩ := id h
  cases i with
  | hide =>
    obtain ⟨-, houtcome⟩ := (exec_hide_eq_next_iff s t).1 hexec
    cases houtcome with
    | tooBig _ _ _ ht | marked _ _ _ _ _ _ ht | embedded _ _ _ _ _ _ ht => subst ht; exact h
  | unhide =>
    obtain ⟨-, r, hscan, houtcome⟩ := (exec_unhide_eq_next_iff s t).1 hexec
    obtain ⟨-, hne, -⟩ := (scan_eq_some_iff ..).1 hscan
    have hacc' := noZero_writeBytes (i := 0) hacc hne
    cases houtcome with
    | badMsg _ ht => subst ht; exact ⟨hacc', hmout, fun i hi => absurd hi i.not_lt_zero⟩
    | noMsg _ _ ht => subst ht; exact ⟨hacc', hmout, fun i hi => absurd hi i.not_lt_zero⟩
    | message _ _ ht =>
      subst ht
      refine ⟨hacc', noZero_writeBytes hmout fun v hv => hne v (List.mem_of_mem_drop hv), ?_⟩
      have hw := written_writeBytes (m := s.mout) (r.bytes.drop 3)
      rwa [List.length_drop] at hw

/-- The engine accumulates no terminator and delivers what it accumulated (R195, R196). -/
theorem EngineEffect.outputInv {s t : State} (h : OutputInv s) (heff : EngineEffect s t) : OutputInv t := by
  obtain ⟨hacc, hmout, hout⟩ := id h
  cases heff with
  | exhausts _ _ _ _ ht => subst ht; exact ⟨hacc, hmout, fun i hi => absurd hi i.not_lt_zero⟩
  | rejects _ _ ht => subst ht; exact ⟨hacc, hmout, fun i hi => absurd hi i.not_lt_zero⟩
  | delivers _ _ _ out hr ht =>
    subst ht
    refine ⟨hacc, noZero_writeBytes hmout (ne_term_of_readBytes hacc hr), ?_⟩
    rw [finish_mout, finish_outLen, ← ((readBytes_eq_some_iff ..).1 hr).1]
    exact written_writeBytes out
  | shifts _ _ p _ _ ht =>
    subst ht
    rcases shifted_cases s p with ⟨_, ht⟩ | ⟨_, _, ht⟩ | ⟨_, hne, ht⟩ <;> rw [ht]
    · exact h
    · exact h
    · exact ⟨noZero_write hacc hne, hmout, hout⟩
  | waits _ ht | tooBig _ _ ht | fits _ _ ht | probes _ _ _ _ _ _ ht | marked _ _ _ _ _ _ _ ht
  | unmarked _ _ _ _ _ _ _ ht | writes _ _ _ _ _ _ _ ht | writesLast _ _ _ _ _ _ _ ht => subst ht; exact h

/-- No move of the host but reset reaches `MOUT`, `OUT_LEN` or `ACC` (R25, R32). -/
theorem HostEffect.outputInv {s t : State} (h : OutputInv s) (heff : HostEffect s t) : OutputInv t := by
  cases heff with
  | resets ht => subst ht; exact ⟨by simp, by simp, fun i hi => absurd hi i.not_lt_zero⟩
  | reads _ ht | nothing ht | asks _ _ _ _ _ _ ht | setsN _ _ ht | setsMsgLen _ _ ht | setsMagic _ _ ht
  | setsSrc _ _ _ _ ht | setsMin _ _ _ _ ht | copies _ _ _ _ ht => subst ht; exact h

/-- Every move keeps the outputs. -/
theorem outputInv_kept : KeptByMoves OutputInv where
  cmd _ h := h
  inbox _ h := h
  command := exec_outputInv
  start h _ := h
  engine := EngineEffect.outputInv
  host := HostEffect.outputInv

end Sys2Proof.Machine
end

section
open Sys2Proof Sys2Proof.Machine

/-- Settles O49: every move writes buffers through `Memory.write` only, which keeps the canonical form. -/
theorem stepKeepsMemoryCanonical : Obligations.StepKeepsMemoryCanonical := by
  unfold Obligations.StepKeepsMemoryCanonical
  exact fun s t => memoryInv_kept.step_keeps

/-- Settles O50: every move that changes `STATUS` or `PHASE` writes a legal pair. -/
theorem stepKeepsStatusLegal : Obligations.StepKeepsStatusLegal := by
  unfold Obligations.StepKeepsStatusLegal
  exact fun s t => statusInv_kept.step_keeps

/-- Settles O51: no terminator is accumulated, and what is delivered was accumulated. -/
theorem stepKeepsOutputs : Obligations.StepKeepsOutputs := by
  unfold Obligations.StepKeepsOutputs
  exact fun s t => outputInv_kept.step_keeps

end

section
/-! PROOFS. The invariants of the machine, continued: capacities (R32, R139), the operands (R28 to R35) and the pending
command (R169). -/

namespace Sys2Proof.Machine

/-! ## Capacities -/

/-- Bytes written below the capacity stay inside it. -/
theorem within_writeBytes {cap : Option Nat} {m : Memory} {i : Nat} {vs : List Byte} (hm : Within cap m)
    (hv : capAllows cap (i + vs.length) = true) : Within cap (m.writeBytes i vs) :=
  forall_writeBytes hm fun j v hj => by
    have hlt := (List.getElem?_eq_some_iff.1 hj).1
    exact capAllows_of_le (by simp only; omega) hv

/-- A byte written below the capacity stays inside it. -/
theorem within_write {cap : Option Nat} {m : Memory} {i : Nat} {v : Byte} (hm : Within cap m)
    (hv : capAllows cap (i + 1) = true) : Within cap (m.write i v) :=
  within_writeBytes (vs := [v]) hm hv

/-- One byte for each whole group of `N` pixel bytes is within `OMAX` (R7, R139). -/
theorem capAllows_omax {caps : Config.Capacities} {n k : Nat} (hn : capAllows caps.nmax n = true) (hk : 8 * k ≤ n) :
    capAllows (omax caps) k = true := by
  unfold omax
  cases hc : caps.nmax with
  | none => rfl
  | some c =>
    rw [hc] at hn
    have hle : n ≤ c := of_decide_eq_true hn
    exact decide_eq_true (show k ≤ c / 8 by omega)

/-- A scan decodes at most one byte for each whole group, and before a terminator one byte fewer (R98, R139). -/
theorem length_le_of_scan {rd : Reader} {n : Nat} {r : Scan} (h : scan rd n = some r) :
    r.bytes.length ≤ n / 8 ∧ (r.foundNul = true → r.bytes.length < n / 8) := by
  obtain ⟨-, -, hend⟩ := (scan_eq_some_iff ..).1 h
  cases hf : r.foundNul with
  | true =>
    obtain ⟨hlt, -⟩ : r.bytes.length < n / 8 ∧ unpackByte rd r.bytes.length = some term := by simpa [hf] using hend
    exact ⟨hlt.le, fun _ => hlt⟩
  | false =>
    have hlen : r.bytes.length = n / 8 := by simpa [hf] using hend
    exact ⟨hlen.le, fun hc => by cases hc⟩

/-- A command starts only if `N` is within `NMAX` (R169). -/
theorem startOk_of_exec {i : Instr} {s t : State} (h : exec i s = .next t) : StartOk s := by
  cases i with
  | hide => exact ((exec_hide_eq_next_iff s t).1 h).1.1
  | unhide => exact ((exec_unhide_eq_next_iff s t).1 h).1

/-- In `IDLE` and `DONE` nothing is said of where the engine is. -/
theorem engineInv_of_resting_phase {s : State} (h : s.phase = .idle ∨ s.phase = .done) : EngineInv s := by
  rcases h with h | h <;> simp only [EngineInv, h]

/-- A command writes `N` bytes of `DST`, or at most one byte of `ACC` and of `MOUT` for each whole group (R139). -/
theorem exec_capacityInv {i : Instr} {s t : State} (h : CapacityInv s) (hexec : exec i s = .next t) : CapacityInv t := by
  obtain ⟨hsrc, hdst, hmin, hmout, hacc, -⟩ := h
  have hengine : EngineInv t := engineInv_of_resting_phase (.inr (exec_phase hexec))
  obtain ⟨-, hn⟩ := startOk_of_exec hexec
  cases i with
  | hide =>
    obtain ⟨-, houtcome⟩ := (exec_hide_eq_next_iff s t).1 hexec
    cases houtcome with
    | tooBig _ _ _ ht => subst ht; exact ⟨hsrc, hdst, hmin, hmout, hacc, hengine⟩
    | marked _ _ _ _ _ _ ht => subst ht; exact ⟨hsrc, hdst, hmin, hmout, hacc, hengine⟩
    | embedded m px _ _ hpx _ ht =>
      subst ht
      have hlen := ((pixels_eq_some_iff s px).1 hpx).1
      refine ⟨hsrc, within_writeBytes hdst ?_, hmin, hmout, hacc, hengine⟩
      rwa [length_embed, hlen, Nat.zero_add]
  | unhide =>
    obtain ⟨-, r, hscan, houtcome⟩ := (exec_unhide_eq_next_iff s t).1 hexec
    have hlen := (length_le_of_scan hscan).1
    have hacc' : Within (omax s.caps) (s.acc.writeBytes 0 r.bytes) :=
      within_writeBytes hacc (capAllows_omax hn (by omega))
    cases houtcome with
    | badMsg _ ht => subst ht; exact ⟨hsrc, hdst, hmin, hmout, hacc', hengine⟩
    | noMsg _ _ ht => subst ht; exact ⟨hsrc, hdst, hmin, hmout, hacc', hengine⟩
    | message _ _ ht =>
      subst ht
      refine ⟨hsrc, hdst, hmin, within_writeBytes hmout (capAllows_omax hn ?_), hacc', hengine⟩
      rw [List.length_drop]
      omega

/-- START of an admitted command puts the engine at pixel byte 0 (R191). -/
theorem started_engineInv {s : State} (i : Instr) (hn : capAllows s.caps.nmax s.n = true) : EngineInv (s.started i) := by
  cases i with
  | hide => exact ⟨hn, rfl⟩
  | unhide =>
    have hop : statusOp (s.started .unhide).status ≠ 1 := by simp [opCode]
    exact ⟨hn, Nat.zero_le _, fun h => absurd h hop, fun _ => ⟨(Nat.zero_div 8).symm, fun h => absurd rfl h⟩⟩

/-- UNHIDE's stream takes a pixel byte inside a whole group, so `IDX` stays within `N` and `ACC` within `OMAX` (R139,
R195). -/
theorem shifted_capacityInv {s : State} (h : CapacityInv s) (hp : s.phase = .streamBits) (ho : statusOp s.status = 2)
    (hi : s.idx % 8 = 0 → 8 ≤ s.n - s.idx) (p : Byte) : CapacityInv (s.shifted p) := by
  obtain ⟨hsrc, hdst, hmin, hmout, hacc, hengine⟩ := h
  simp only [EngineInv, hp] at hengine
  obtain ⟨hn, hidx, -, hunhide⟩ := hengine
  obtain ⟨hlen, hgroup⟩ := hunhide ho
  have hwhole : 8 * (s.idx / 8) + 8 ≤ s.n := by omega
  have hop : statusOp s.status ≠ 1 := by rw [ho]; decide
  rcases shifted_cases s p with ⟨h7, ht⟩ | ⟨h7, -, ht⟩ | ⟨h7, -, ht⟩ <;> rw [ht]
  · refine ⟨hsrc, hdst, hmin, hmout, hacc, ?_⟩
    simp only [EngineInv, hp]
    exact ⟨hn, by omega, fun h => absurd h hop, fun _ => ⟨by omega, fun _ => by omega⟩⟩
  · exact ⟨hsrc, hdst, hmin, hmout, hacc, hn, by simp only; omega⟩
  · refine ⟨hsrc, hdst, hmin, hmout, within_write hacc (capAllows_omax hn (by omega)), ?_⟩
    simp only [EngineInv, hp]
    exact ⟨hn, by omega, fun h => absurd h hop, fun _ => ⟨by omega, fun _ => by omega⟩⟩

/-- The engine's indices stay inside the buffers (R22, R139). -/
theorem EngineEffect.capacityInv {s t : State} (hstatus : StatusInv s) (h : CapacityInv s) (heff : EngineEffect s t) :
    CapacityInv t := by
  obtain ⟨hsrc, hdst, hmin, hmout, hacc, hengine⟩ := id h
  cases heff with
  | waits _ ht => subst ht; exact h
  | tooBig _ _ ht | marked _ _ _ _ _ _ _ ht | exhausts _ _ _ _ ht | rejects _ _ ht =>
    subst ht; exact ⟨hsrc, hdst, hmin, hmout, hacc, trivial⟩
  | fits hp hfit ht =>
    subst ht
    simp only [EngineInv, hp] at hengine
    obtain ⟨hn, hidx⟩ := hengine
    exact ⟨hsrc, hdst, hmin, hmout, hacc, hn, by simp [hidx], hfit, rfl⟩
  | probes hp p b _ _ hi ht =>
    subst ht
    simp only [EngineInv, hp] at hengine
    obtain ⟨hn, hidx, hfit, hflen⟩ := hengine
    refine ⟨hsrc, hdst, hmin, hmout, hacc, ?_⟩
    simp only [EngineInv, State.probed, hp]
    exact ⟨hn, by omega, hfit, hflen⟩
  | unmarked hp p b _ _ _ _ ht =>
    subst ht
    simp only [EngineInv, hp] at hengine
    obtain ⟨hn, -, hfit, hflen⟩ := hengine
    have hop : statusOp s.status ≠ 2 := by rw [status_eq_of_checkMagic hstatus hp]; decide
    refine ⟨hsrc, hdst, hmin, hmout, hacc, hn, Nat.zero_le _, fun _ => ?_, fun h => absurd h hop⟩
    show 0 < s.n
    omega
  | writes hp ho p d _ _ hi ht =>
    subst ht
    simp only [EngineInv, hp] at hengine
    obtain ⟨hn, -, hhide, -⟩ := hengine
    have hlt := hhide ho
    have hop : statusOp s.status ≠ 2 := by rw [ho]; decide
    refine ⟨hsrc, within_write hdst (capAllows_of_le hlt hn), hmin, hmout, hacc, ?_⟩
    simp only [EngineInv, hp]
    exact ⟨hn, hlt, fun _ => by omega, fun h => absurd h hop⟩
  | writesLast hp ho p d _ _ hi ht =>
    subst ht
    simp only [EngineInv, hp] at hengine
    obtain ⟨hn, -, -, -⟩ := hengine
    exact ⟨hsrc, within_write hdst (hi ▸ hn), hmin, hmout, hacc, trivial⟩
  | shifts hp ho p hi _ ht => subst ht; exact shifted_capacityInv h hp ho hi p
  | delivers hp _ _ out hr ht =>
    subst ht
    simp only [EngineInv, hp] at hengine
    obtain ⟨hn, hidx⟩ := hengine
    have hlen := ((readBytes_eq_some_iff ..).1 hr).1
    exact ⟨hsrc, hdst, hmin, within_writeBytes hmout (capAllows_omax hn (by omega)), hacc, trivial⟩

/-- The host writes below the capacities, and no length register while the engine runs (R32, R40). -/
theorem HostEffect.capacityInv {s t : State} (hstatus : StatusInv s) (h : CapacityInv s) (heff : HostEffect s t) :
    CapacityInv t := by
  obtain ⟨hsrc, hdst, hmin, hmout, hacc, hengine⟩ := id h
  have hrest {u : State} (hs : s.resting = true) (hu : u.phase = s.phase) : EngineInv u :=
    engineInv_of_resting_phase (hu ▸ phase_of_resting hstatus hs)
  cases heff with
  | resets ht => subst ht; exact ⟨by simp, by simp, by simp, by simp, by simp, trivial⟩
  | setsN hs _ ht => subst ht; exact ⟨hsrc, hdst, hmin, hmout, hacc, hrest hs rfl⟩
  | setsMsgLen hs _ ht => subst ht; exact ⟨hsrc, hdst, hmin, hmout, hacc, hrest hs rfl⟩
  | setsSrc _ _ _ hc ht => subst ht; exact ⟨within_write hsrc hc, hdst, hmin, hmout, hacc, hengine⟩
  | setsMin _ _ _ hc ht => subst ht; exact ⟨hsrc, hdst, within_write hmin hc, hmout, hacc, hengine⟩
  | copies _ hc bs hb ht =>
    subst ht
    have hlen := ((readBytes_eq_some_iff ..).1 hb).1
    exact ⟨within_writeBytes hsrc (by rwa [hlen, Nat.zero_add]), hdst, hmin, hmout, hacc, hengine⟩
  | reads _ ht | nothing ht | asks _ _ _ _ _ _ ht | setsMagic _ _ ht => subst ht; exact h

/-- Every move keeps a legal `STATUS` and the capacities together. -/
theorem capacityInv_kept : KeptByMoves fun s => StatusInv s ∧ CapacityInv s where
  cmd _ h := h
  inbox _ h := h
  command h hexec := ⟨statusInv_kept.command h.1 hexec, exec_capacityInv h.2 hexec⟩
  start := fun ⟨_, hsrc, hdst, hmin, hmout, hacc, _⟩ hexec =>
    ⟨started_statusInv .., hsrc, hdst, hmin, hmout, hacc, started_engineInv _ (startOk_of_exec hexec).2⟩
  engine := fun ⟨hstatus, h⟩ heff => ⟨heff.statusInv hstatus, heff.capacityInv hstatus h⟩
  host := fun ⟨hstatus, h⟩ heff => ⟨heff.statusInv hstatus, heff.capacityInv hstatus h⟩

/-! ## The operands -/

/-- `t` has the operands, the parameters, the host's own fields and the command word of `s`. -/
def SameOperands (s t : State) : Prop :=
  t.n = s.n ∧ t.msgLen = s.msgLen ∧ t.magic = s.magic ∧ t.src = s.src ∧ t.min = s.min ∧ t.caps = s.caps ∧
    t.inbox = s.inbox ∧ t.hostRead = s.hostRead ∧ t.cmd = s.cmd

/-- An update of other fields than these keeps them, by definition. -/
theorem SameOperands.refl (s : State) : SameOperands s s := ⟨rfl, rfl, rfl, rfl, rfl, rfl, rfl, rfl, rfl⟩

/-- A command writes no operand (R28 to R35). -/
theorem exec_sameOperands {i : Instr} {s t : State} (h : exec i s = .next t) : SameOperands s t := by
  cases i with
  | hide =>
    obtain ⟨-, houtcome⟩ := (exec_hide_eq_next_iff s t).1 h
    obtain ⟨_, _, _, rfl⟩ | ⟨_, _, _, _, _, _, rfl⟩ | ⟨_, _, _, _, _, _, rfl⟩ := houtcome <;> exact .refl s
  | unhide =>
    obtain ⟨-, r, -, houtcome⟩ := (exec_unhide_eq_next_iff s t).1 h
    obtain ⟨_, rfl⟩ | ⟨_, _, rfl⟩ | ⟨_, _, rfl⟩ := houtcome <;> exact .refl s

/-- START writes no operand (R191). -/
theorem startCommand_sameOperands {i : Instr} {s t : State} (h : startCommand i s = .next t) : SameOperands s t := by
  obtain ⟨rfl, -⟩ := startCommand_eq_next h
  exact .refl s

/-- The engine writes no operand (R192 to R196). -/
theorem EngineEffect.sameOperands {s t : State} (heff : EngineEffect s t) : SameOperands s t := by
  cases heff with
  | shifts _ _ p _ _ ht =>
    subst ht
    rcases shifted_cases s p with ⟨_, ht⟩ | ⟨_, _, ht⟩ | ⟨_, _, ht⟩ <;> rw [ht] <;> exact .refl _
  | waits _ ht | tooBig _ _ ht | fits _ _ ht | probes _ _ _ _ _ _ ht | marked _ _ _ _ _ _ _ ht
  | unmarked _ _ _ _ _ _ _ ht | writes _ _ _ _ _ _ _ ht | writesLast _ _ _ _ _ _ _ ht | exhausts _ _ _ _ ht
  | rejects _ _ ht | delivers _ _ _ _ _ ht => subst ht; exact .refl _

/-! ## The pending command -/

/-- Admission does not look at `CMD` or at the host's coming moves (R169). -/
theorem admitted_congr {i : Instr} {s : State} (c : Byte) (ms : List HostMove) :
    Admitted i { s with cmd := c, inbox := ms } ↔ Admitted i s := by cases i <;> rfl

/-- A state with no pending command meets the invariant. -/
theorem pendingInv_of_cmd {s : State} (h : s.cmd = 0) : PendingInv s := fun hne => absurd h hne

/-- The host leaves `CMD` empty, or writes the word of a command that is then admitted (R26, R169). -/
theorem HostEffect.pendingInv {s t : State} (hc : s.cmd = 0) (heff : HostEffect s t) : PendingInv t := by
  cases heff with
  | asks _ c i u hd hexec ht =>
    subst ht
    exact fun _ => ⟨i, hd, (admitted_congr c s.inbox).2 ((admitted_iff_exists_next i s).2 ⟨u, hexec⟩)⟩
  | resets ht => subst ht; exact pendingInv_of_cmd rfl
  | reads _ ht | nothing ht | setsN _ _ ht | setsMsgLen _ _ ht | setsMagic _ _ ht | setsSrc _ _ _ _ ht
  | setsMin _ _ _ _ ht | copies _ _ _ _ ht => subst ht; exact pendingInv_of_cmd hc

/-- After one step no command is pending but one the host has just asked for, which is admitted. -/
theorem advance_pendingInv {accept : Instr → State → Result} {s t : State}
    (haccept : ∀ {i u}, accept i u = .next t → SameOperands u t) (h : advance accept s = .next t) : PendingInv t := by
  rcases advance_eq_next h with ⟨i, -, ht⟩ | ⟨hc, ht⟩ | ⟨hc, m, rest, -, heff⟩
  · obtain ⟨-, -, -, -, -, -, -, -, hcmd⟩ := haccept ht
    exact pendingInv_of_cmd hcmd
  · obtain ⟨-, -, -, -, -, -, -, -, hcmd⟩ := (engineStep_eq_next ht).sameOperands
    exact pendingInv_of_cmd (hcmd.trans hc)
  · exact HostEffect.pendingInv (s := { s with inbox := rest }) hc heff

/-- A pending word that names a command is taken, and the command runs with `CMD` emptied (R26). -/
theorem advance_of_pending {accept : Instr → State → Result} {s : State} {i : Instr} (hd : decode s.cmd = .ok i) :
    advance accept s = accept i { s with cmd := 0 } := by
  have hc : s.cmd ≠ 0 := fun hc => by rw [hc] at hd; cases hd
  simp only [advance, hc, if_false, takeCommand, hd]

end Sys2Proof.Machine
end

section
open Sys2Proof Sys2Proof.Machine

/-- Settles O52: the indices are bounded in every phase, and what is written stands at an index so bounded; a host that sets a
length register finds the engine at rest, by the legal `STATUS`. -/
theorem stepKeepsCapacity : Obligations.StepKeepsCapacity := by
  unfold Obligations.StepKeepsCapacity
  intro s t hstatus hcap hstep
  exact (capacityInv_kept.step_keeps ⟨hstatus, hcap⟩ hstep).2

/-- Settles O41: no outcome of a command, nor START, nor any move of the engine, writes an operand. -/
theorem engineNeverWritesOperands : Obligations.EngineNeverWritesOperands := by
  unfold Obligations.EngineNeverWritesOperands
  rintro i s t (hexec | hstart | hengine)
  · exact exec_sameOperands hexec
  · exact startCommand_sameOperands hstart
  · exact (engineStep_eq_next hengine).sameOperands

/-- Settles O53: taking a command, and every move of the engine, leaves `CMD` empty; the host puts a word there only if its
command is admitted, and an admitted command has a next state. -/
theorem stepKeepsPendingAdmitted : Obligations.StepKeepsPendingAdmitted := by
  unfold Obligations.StepKeepsPendingAdmitted
  refine ⟨fun s t _ hstep => ?_, fun s hpending hcmd => ?_⟩
  · rcases hstep with hstep | hstep
    · exact advance_pendingInv exec_sameOperands hstep
    · exact advance_pendingInv startCommand_sameOperands hstep
  · obtain ⟨i, hd, hadm⟩ := hpending hcmd
    obtain ⟨t, hexec⟩ := (admitted_iff_exists_next i _).1 ((admitted_congr 0 s.inbox).2 hadm)
    exact ⟨t, (advance_of_pending hd).trans hexec⟩

end

section
/-! PROOFS. The commands' frames and outcomes: HIDE (R114, R116, R117), UNHIDE (R131, R137, R139), what of `SRC` has an influence
(R73, R74), a command run twice (R56), and HIDE followed by `COPYBACK` (R120, R138, R189). -/

namespace Sys2Proof.Machine

/-! ## The `STATUS` of HIDE -/

/-- HIDE's result is decided by the two lengths and the detector (R118). -/
theorem exec_hide_status {s t : State} (h : exec .hide s = .next t) :
    t.status = if s.n < 8 * (s.msgLen + 4) then 0x26 else if magicPresent s.pixelReader s.n s.magic then 0x2A else 0x22 := by
  obtain ⟨hok, htooBig, hmsg, -⟩ := status_values
  obtain ⟨-, houtcome⟩ := (exec_hide_eq_next_iff s t).1 h
  cases houtcome with
  | tooBig _ _ hc ht => rw [ht, finish_status, if_pos hc, htooBig]
  | marked _ _ _ hc _ hd ht => rw [ht, finish_status, if_neg (by omega), if_pos hd, hmsg]
  | embedded _ _ _ hc _ hd ht => rw [ht, finish_status, if_neg (by omega), if_neg (by simp [hd]), hok]

/-- HIDE that ends with OK has embedded its frame (R115). -/
theorem exec_hide_of_ok {s t : State} (h : exec .hide s = .next t) (hok : t.status = 0x22) :
    ∃ m px, s.message = some m ∧ 8 * (s.msgLen + 4) ≤ s.n ∧ s.pixels = some px ∧
      t = { s with dst := s.dst.writeBytes 0 (embed px (frame s.magic m)) }.finish .hide none := by
  obtain ⟨-, houtcome⟩ := (exec_hide_eq_next_iff s t).1 h
  cases houtcome with
  | tooBig _ _ _ ht => rw [ht, finish_status] at hok; exact absurd hok (by decide)
  | marked _ _ _ _ _ _ ht => rw [ht, finish_status] at hok; exact absurd hok (by decide)
  | embedded m px hm hc hp _ ht => exact ⟨m, px, hm, hc, hp, ht⟩

/-! ## UNHIDE on another source -/

/-- Whatever the outcome, `ACC_LEN` and `FOUND_NUL` are the scan's (R132). -/
theorem UnhideOutcome.scan_fields {s t : State} {r : Scan} (h : UnhideOutcome s t r) :
    t.accLen = r.bytes.length ∧ t.foundNul = r.foundNul := by
  obtain ⟨_, rfl⟩ | ⟨_, _, rfl⟩ | ⟨_, _, rfl⟩ := h <;> exact ⟨rfl, rfl⟩

/-- UNHIDE uses `SRC` in its scan only: on a source that scans to the same it does the same (R130). -/
theorem exec_unhide_of_scan_eq {s t : State} {src' : Memory} (h : exec .unhide s = .next t)
    (heq : scan s.pixelReader s.n = scan (fun i => src'.read i) s.n) :
    exec .unhide { s with src := src' } = .next { t with src := src' } := by
  obtain ⟨hstart, r, hscan, houtcome⟩ := (exec_unhide_eq_next_iff s t).1 h
  refine (exec_unhide_eq_next_iff _ _).2 ⟨hstart, r, heq.symm.trans hscan, ?_⟩
  cases houtcome with
  | badMsg hf ht => subst ht; exact .badMsg hf rfl
  | noMsg hf hv ht => subst ht; exact .noMsg hf hv rfl
  | message hf hv ht => subst ht; exact .message hf hv rfl

/-- Sources with the same LSBs in the whole groups scan to the same (R73). -/
theorem scan_congr_lsb {rd rd' : Reader} {n : Nat} (h : ∀ i < n, (rd i).map lsbRead = (rd' i).map lsbRead) :
    scan rd n = scan rd' n :=
  scanGroups_congr _ _ fun l hl _ => unpackByte_congr fun j hj => h _ (by omega)

/-- Sources that agree up to the end of the terminator's group scan to the same (R74). -/
theorem scan_congr_of_term {rd rd' : Reader} {n K : Nat} (hterm : unpackByte rd K = some term)
    (h : ∀ i < 8 * (K + 1), rd i = rd' i) : scan rd n = scan rd' n := by
  refine scanGroups_congr _ _ fun l _ hbefore => unpackByte_congr fun j hj => ?_
  have hle : l ≤ K := by
    by_contra hlt
    exact hbefore K (by omega) (by rwa [Nat.zero_add])
  rw [h _ (by omega)]

/-! ## HIDE on another source -/

/-- HIDE is admitted alike on sources with the same LSBs (R73, R169). -/
theorem admitted_hide_of_lsb {s : State} {src' : Memory} (hadm : Admitted .hide s)
    (h : ∀ i < s.n, (s.src.read i).map lsbRead = (src'.read i).map lsbRead) : Admitted .hide { s with src := src' } := by
  obtain ⟨hstart, hsrc⟩ := hadm
  refine ⟨hstart, fun hfit i hi => ?_⟩
  rw [← Option.isSome_map (f := lsbRead), ← h i hi, Option.isSome_map]
  exact hsrc hfit i hi

/-! ## A buffer that carries a frame, and the commands -/

/-- After an OK HIDE the copy back is taken, and then `SRC` is written and carries the frame (R115, R189). -/
theorem copyBack_of_hide {s t : State} (hexec : exec .hide s = .next t) (hok : t.status = 0x22) :
    ∃ m u, s.message = some m ∧ hostMove .copyBack t = .next u ∧ StartOk u ∧ u.n = s.n ∧ u.magic = s.magic ∧
      Written u.src u.n ∧ Carries u.pixelReader u.n (frame u.magic m) := by
  obtain ⟨m, px, hm, hfit, hpx, ht⟩ := exec_hide_of_ok hexec hok
  obtain ⟨-, hn⟩ := startOk_of_exec hexec
  obtain ⟨hmlen, -⟩ := (message_eq_some_iff s m).1 hm
  obtain ⟨hlen, -⟩ := (pixels_eq_some_iff s px).1 hpx
  have hrest : t.resting = true := by rw [ht, resting_finish]
  have hdst : t.dst.readBytes 0 t.n = some (embed px (frame s.magic m)) := by
    subst ht
    refine (readBytes_eq_some_iff ..).2 ⟨by rw [length_embed, hlen, finish_n], fun j hj => ?_⟩
    rw [Nat.zero_add, finish_dst, read_writeBytes_embed, if_pos (hlen ▸ hj)]
  have hread : ∀ i < s.n, (t.src.writeBytes 0 (embed px (frame s.magic m))).read i = (embed px (frame s.magic m))[i]? :=
    fun i hi => by rw [read_writeBytes_embed, if_pos (hlen ▸ hi)]
  have hcap : capAllows t.caps.nmax t.n = true := by subst ht; exact hn
  have htn : t.n = s.n := by rw [ht, finish_n]
  have htmagic : t.magic = s.magic := by rw [ht, finish_magic]
  refine ⟨m, { t with src := t.src.writeBytes 0 (embed px (frame s.magic m)) }, hm, ?_, ⟨hrest, hcap⟩, htn, htmagic,
    fun i hi => ?_, ?_⟩
  · simp [hostMove, hostCopyBack, hrest, hcap, hdst]
  · rw [hread i (htn ▸ hi), List.getElem?_eq_getElem (by rw [length_embed, hlen, ← htn]; exact hi)]
    rfl
  · show Carries _ t.n (frame t.magic m)
    rw [htn, htmagic]
    have hcarries := carries_embed (px := px) (f := frame s.magic m) (by rw [length_frame, hmlen, hlen]; exact hfit)
    rw [hlen] at hcarries
    exact hcarries.congr hread

/-- UNHIDE of a carried frame delivers the message up to its first 0x00 byte, or all of it (R74, R135, R138). -/
theorem exec_unhide_of_carries {u : State} {m P rest : List Byte} (hstart : StartOk u)
    (hcarries : Carries u.pixelReader u.n (frame u.magic m)) (hsplit : m ++ [term] = P ++ term :: rest)
    (hP : ∀ v ∈ P, v ≠ term) (hmagic : ∀ v ∈ u.magic.bytes, v ≠ term) :
    ∃ v, exec .unhide u = .next v ∧ v.status = 0x42 ∧ v.outLen = P.length ∧ (∀ i < P.length, v.mout.read i = P[i]?) ∧
      v.n = u.n := by
  have hframe : frame u.magic m = (u.magic.bytes ++ P) ++ term :: rest := by
    rw [frame, List.append_assoc, hsplit, List.append_assoc]
  rw [hframe] at hcarries
  have hscan := hcarries.scan_eq fun v hv => (List.mem_append.1 hv).elim (hmagic v) (hP v)
  refine ⟨_, exec_unhide_of_token hstart hscan (by simp [Magic.bytes]) rfl, rfl, rfl, fun i hi => ?_, rfl⟩
  exact (read_writeBytes_zero ..).trans (if_pos hi)

/-- UNHIDE of a carried frame whose token holds a 0x00 byte finds the terminator before it has a token (R138). -/
theorem exec_unhide_of_carries_zero_token {u : State} {m : List Byte} (hstart : StartOk u)
    (hcarries : Carries u.pixelReader u.n (frame u.magic m)) (hzero : term ∈ u.magic.bytes) :
    ∃ v, exec .unhide u = .next v ∧ v.status = 0x4E ∧ v.outLen = 0 := by
  obtain ⟨P, rest, hsplit, hP⟩ := List.eq_append_cons_of_mem hzero
  have hlen : P.length < 3 := by
    have := congrArg List.length hsplit
    rw [List.length_append, List.length_cons, Magic.bytes] at this
    simp only [List.length_cons, List.length_nil] at this
    omega
  have hframe : frame u.magic m = P ++ term :: (rest ++ (m ++ [term])) := by
    rw [frame, List.append_assoc, hsplit, List.append_assoc, List.cons_append]
  rw [hframe] at hcarries
  have hscan := hcarries.scan_eq fun v hv hz => hP (hz ▸ hv)
  exact ⟨_, exec_unhide_of_no_token hstart hscan (by omega), rfl, rfl⟩

end Sys2Proof.Machine
end

section
open Sys2Proof Sys2Proof.Machine

/-- Settles O37: what is copied back carries the frame, whose first 0x00 byte is the terminator. -/
theorem machineRoundTrip : Obligations.MachineRoundTrip := by
  unfold Obligations.MachineRoundTrip
  intro s t hexec hok hmsg hmagic
  obtain ⟨m, u, hm, hcopy, hstart, hn, hmag, -, hcarries⟩ := copyBack_of_hide hexec hok
  obtain ⟨hlen, hmin⟩ := (message_eq_some_iff s m).1 hm
  have hne : ∀ v ∈ m, v ≠ term := fun v hv hz => by
    obtain ⟨i, hi, hvi⟩ := List.getElem_of_mem hv
    refine hmsg i (hlen ▸ hi) ?_
    rw [hmin i (hlen ▸ hi), List.getElem?_eq_getElem hi, hvi, hz, term]
  obtain ⟨v, hunhide, hstatus, hout, hmout, hvn⟩ := exec_unhide_of_carries hstart hcarries rfl hne (hmag ▸ hmagic)
  exact ⟨u, v, hcopy, hunhide, hstatus, hout.trans hlen, fun i hi => by rw [hmout i (hlen ▸ hi), hmin i hi], hvn.trans hn⟩

/-- Settles O38: the first 0x00 byte of the frame, in the message or in the token, ends the scan. -/
theorem embeddedNulTruncates : Obligations.EmbeddedNulTruncates := by
  unfold Obligations.EmbeddedNulTruncates
  intro s t hexec hok
  obtain ⟨m, u, hm, hcopy, hstart, hn, hmag, -, hcarries⟩ := copyBack_of_hide hexec hok
  obtain ⟨hlen, hmin⟩ := (message_eq_some_iff s m).1 hm
  refine ⟨fun z hz hzero hfirst hmagic => ?_, fun hzero => ?_⟩
  · obtain ⟨hzm, hzv⟩ := List.getElem?_eq_some_iff.1 ((hmin z hz).symm.trans hzero)
    have hsplit : m ++ [term] = m.take z ++ term :: (m.drop (z + 1) ++ [term]) := by
      rw [← List.cons_append, ← List.append_assoc, show term = m[z] from hzv.symm, ← List.drop_eq_getElem_cons hzm,
        List.take_append_drop]
    have hne : ∀ v ∈ m.take z, v ≠ term := fun v hv hvz => by
      obtain ⟨i, hi, hvi⟩ := List.mem_take_iff_getElem.1 hv
      refine hfirst i (by omega) ?_
      rw [hmin i (by omega), List.getElem?_eq_getElem (by omega), hvi, hvz, term]
    have hPlen : (m.take z).length = z := List.length_take_of_le hzm.le
    obtain ⟨v, hunhide, hstatus, hout, hmout, -⟩ := exec_unhide_of_carries hstart hcarries hsplit hne (hmag ▸ hmagic)
    refine ⟨u, v, hcopy, hunhide, hstatus, hout.trans hPlen, fun i hi => ?_⟩
    rw [hmout i (by omega), List.getElem?_take_of_lt hi, hmin i (by omega)]
  · obtain ⟨v, hunhide, hstatus, hout⟩ := exec_unhide_of_carries_zero_token hstart hcarries (hmag ▸ hzero)
    exact ⟨u, v, hcopy, hunhide, hstatus, hout⟩

/-- Settles O24: the outcome is `exec_hide_of_marked`; `0x2A` is the value of `STATUS` for HIDE ended with ERR = 2. -/
theorem hideAlreadyHidden : Obligations.HideAlreadyHidden := by
  unfold Obligations.HideAlreadyHidden
  obtain ⟨-, -, hmsg, -⟩ := status_values
  intro s hadm hfit hmarked
  rw [exec_hide_of_marked hadm hfit hmarked, State.finish, hmsg]

/-- Settles O29: the source copied back carries the frame, so it is written and its token is detected; a message that does
not fit is found out before that. -/
theorem hideTwiceRejected : Obligations.HideTwiceRejected := by
  unfold Obligations.HideTwiceRejected
  obtain ⟨-, htooBig, hmsg, -⟩ := status_values
  intro s t u v hexec hok hcopy hv hstart
  obtain ⟨m, u', -, hcopy', -, -, -, hwritten, hcarries⟩ := copyBack_of_hide hexec hok
  obtain rfl : u' = u := Host.Outcome.next.inj (hcopy'.symm.trans hcopy)
  have hsrc : v.src = u'.src := by rw [hv]
  have hn : v.n = u'.n := by rw [hv]
  have hmagic : v.magic = u'.magic := by rw [hv]
  by_cases hfit : capacityOk v.msgLen v.n = true
  · have hadm : Admitted .hide v := ⟨hstart, fun _ => by rw [hsrc, hn]; exact hwritten⟩
    have hmarked : magicPresent v.pixelReader v.n v.magic = true := by
      show magicPresent (fun i => v.src.read i) v.n v.magic = true
      rw [hsrc, hn, hmagic]
      exact hcarries.magicPresent
    rw [exec_hide_of_marked hadm ((capacityOk_iff ..).1 hfit) hmarked, State.finish, hmsg, if_pos hfit]
  · have hbig : v.n < 8 * (v.msgLen + 4) := by rwa [capacityOk_iff, not_le] at hfit
    rw [exec_hide_of_not_fits hstart hbig, State.finish, htooBig, if_neg hfit]

/-- Settles O26: an error writes `STATUS` and `PHASE` only, and the embedded pixels are `N` bytes. -/
theorem hideFrame : Obligations.HideFrame := by
  unfold Obligations.HideFrame
  intro s t hexec
  obtain ⟨-, houtcome⟩ := (exec_hide_eq_next_iff s t).1 hexec
  cases houtcome with
  | tooBig _ _ _ ht => subst ht; exact ⟨rfl, rfl, fun _ => rfl, fun a _ => rfl⟩
  | marked _ _ _ _ _ _ ht => subst ht; exact ⟨rfl, rfl, fun _ => rfl, fun a _ => rfl⟩
  | embedded m px _ _ hpx _ ht =>
    subst ht
    have hlen := ((pixels_eq_some_iff s px).1 hpx).1
    refine ⟨rfl, rfl, fun herr => absurd (statusErr_statusByte ..) herr, fun a ha => ?_⟩
    rw [finish_dst, read_writeBytes_embed, if_neg (by omega)]

/-- Settles O33: every outcome has the scan's bytes in `ACC`; an error writes no byte of `MOUT`, and a message is written
from index 0 to `OUT_LEN`. -/
theorem unhideFrame : Obligations.UnhideFrame := by
  unfold Obligations.UnhideFrame
  intro s t hexec
  obtain ⟨-, r, -, houtcome⟩ := (exec_unhide_eq_next_iff s t).1 hexec
  cases houtcome with
  | badMsg _ ht =>
    subst ht
    exact ⟨rfl, statusState_statusByte .., statusOp_statusByte .., .inr (.inr (statusErr_statusByte ..)),
      fun _ => ⟨rfl, rfl⟩, fun a _ => rfl, fun a => decoded_acc_read_of_le s r⟩
  | noMsg _ _ ht =>
    subst ht
    exact ⟨rfl, statusState_statusByte .., statusOp_statusByte .., .inr (.inl (statusErr_statusByte ..)),
      fun _ => ⟨rfl, rfl⟩, fun a _ => rfl, fun a => decoded_acc_read_of_le s r⟩
  | message _ _ ht =>
    subst ht
    refine ⟨rfl, statusState_statusByte .., statusOp_statusByte .., .inl (statusErr_statusByte ..),
      fun herr => absurd (statusErr_statusByte ..) herr, fun a ha => ?_, fun a => decoded_acc_read_of_le s r⟩
    have ha : r.bytes.length - 3 ≤ a := ha
    rw [finish_mout, read_writeBytes_drop, if_neg (by omega)]

/-- Settles O34: the scan gives at most one byte for each whole group, one fewer before a terminator, and a message stands
behind three of them. -/
theorem unhideOutputBound : Obligations.UnhideOutputBound := by
  unfold Obligations.UnhideOutputBound
  intro s t hexec
  obtain ⟨⟨-, hn⟩, r, hscan, houtcome⟩ := (exec_unhide_eq_next_iff s t).1 hexec
  obtain ⟨hacc, -⟩ := houtcome.scan_fields
  obtain ⟨hle, hlt⟩ := length_le_of_scan hscan
  rw [hacc]
  refine ⟨hle, capAllows_omax hn (by omega), fun herr => ?_⟩
  cases houtcome with
  | badMsg _ ht => subst ht; exact absurd herr (by simp [errCode])
  | noMsg _ _ ht => subst ht; exact absurd herr (by simp [errCode])
  | message hf hv ht =>
    subst ht
    have hlt := hlt hf
    obtain ⟨hthree, -⟩ := (validate_iff ..).1 hv
    show 32 ≤ s.n ∧ r.bytes.length - 3 ≤ s.n / 8 - 4 ∧ r.bytes.length ≤ s.n / 8 - 1
    omega

/-- Settles O35: UNHIDE uses the source in its scan only, which looks at LSBs; the `STATUS` of HIDE depends on it through the
detector only, which looks at LSBs too. -/
theorem upperBitsNoInfluence : Obligations.UpperBitsNoInfluence := by
  unfold Obligations.UpperBitsNoInfluence
  intro s t src' hlsb
  refine ⟨fun hexec => exec_unhide_of_scan_eq hexec (scan_congr_lsb hlsb), fun hexec => ?_⟩
  have hadm := admitted_hide_of_lsb ((admitted_hide_iff s).2 ⟨t, hexec⟩) hlsb
  obtain ⟨t', hexec'⟩ := (admitted_hide_iff _).1 hadm
  refine ⟨t', hexec', ?_⟩
  have hdetect : magicPresent { s with src := src' }.pixelReader s.n s.magic = magicPresent s.pixelReader s.n s.magic :=
    magicPresent_congr _ _ fun hn i hi => (hlsb i (by omega)).symm
  rw [exec_hide_status hexec', exec_hide_status hexec, hdetect]

/-- Settles O36: the scan stops at the terminator, at payload index `ACC_LEN`. -/
theorem unhideIgnoresTail : Obligations.UnhideIgnoresTail := by
  unfold Obligations.UnhideIgnoresTail
  intro s t src' hexec hfound hsame
  obtain ⟨-, r, hscan, houtcome⟩ := (exec_unhide_eq_next_iff s t).1 hexec
  obtain ⟨hacc, hf⟩ := houtcome.scan_fields
  obtain ⟨-, -, hend⟩ := (scan_eq_some_iff ..).1 hscan
  rw [← hf, hfound, if_pos rfl, ← hacc] at hend
  exact exec_unhide_of_scan_eq hexec (scan_congr_of_term hend.2 hsame)

/-- Settles O39: the second run finds the operands of the first, and in canonical memory it writes the bytes that stand
there. -/
theorem commandRepeats : Obligations.CommandRepeats := by
  unfold Obligations.CommandRepeats
  intro i s t hmem hexec
  obtain ⟨-, hdst, -, hmout, hacc⟩ := hmem
  cases i with
  | hide =>
    obtain ⟨⟨⟨-, hn⟩, hl⟩, houtcome⟩ := (exec_hide_eq_next_iff s t).1 hexec
    cases houtcome with
    | tooBig m hm hc ht =>
      subst ht
      exact (exec_hide_eq_next_iff _ _).2 ⟨⟨⟨resting_finish .., hn⟩, hl⟩, .tooBig m hm hc rfl⟩
    | marked m px hm hc hp hd ht =>
      subst ht
      exact (exec_hide_eq_next_iff _ _).2 ⟨⟨⟨resting_finish .., hn⟩, hl⟩, .marked m px hm hc hp hd rfl⟩
    | embedded m px hm hc hp hd ht =>
      subst ht
      refine (exec_hide_eq_next_iff _ _).2 ⟨⟨⟨resting_finish .., hn⟩, hl⟩, .embedded m px hm hc hp hd ?_⟩
      simp only [State.finish, writeBytes_twice 0 _ hdst]
  | unhide =>
    obtain ⟨⟨-, hn⟩, r, hscan, houtcome⟩ := (exec_unhide_eq_next_iff s t).1 hexec
    cases houtcome with
    | badMsg hf ht =>
      subst ht
      refine (exec_unhide_eq_next_iff _ _).2 ⟨⟨resting_finish .., hn⟩, r, hscan, .badMsg hf ?_⟩
      simp only [State.finish, State.decoded, writeBytes_twice 0 _ hacc]
    | noMsg hf hv ht =>
      subst ht
      refine (exec_unhide_eq_next_iff _ _).2 ⟨⟨resting_finish .., hn⟩, r, hscan, .noMsg hf hv ?_⟩
      simp only [State.finish, State.decoded, writeBytes_twice 0 _ hacc]
    | message hf hv ht =>
      subst ht
      refine (exec_unhide_eq_next_iff _ _).2 ⟨⟨resting_finish .., hn⟩, r, hscan, .message hf hv ?_⟩
      simp only [State.finish, State.decoded, writeBytes_twice 0 _ hacc, writeBytes_twice 0 _ hmout]

end

section
/-! PROOFS. Runs of the engine (R190), the shift register and the match flag along them (R193, R195), and the 24 steps of
`CHECK_MAGIC` (R193). -/

namespace Sys2Proof.Machine

/-! ## Runs in which `STATUS` keeps its value -/

/-- `k` steps of the engine lead from `s` to `t`, and `STATUS` is `b` in every state before `t`. -/
def BusyRun (b : Byte) (k : Nat) (s t : State) : Prop :=
  runEngine k s = .next t ∧ ∀ j < k, ∃ w, runEngine j s = .next w ∧ w.status = b

/-- No steps. -/
theorem BusyRun.refl (b : Byte) (s : State) : BusyRun b 0 s s := ⟨rfl, fun j hj => absurd hj j.not_lt_zero⟩

/-- One step more at the end. -/
theorem BusyRun.snoc {b : Byte} {k : Nat} {s t u : State} (h : BusyRun b k s t) (hb : t.status = b)
    (hstep : engineStep t = .next u) : BusyRun b (k + 1) s u := by
  obtain ⟨hrun, hbusy⟩ := h
  refine ⟨runEngine_snoc hrun hstep, fun j hj => ?_⟩
  rcases Nat.lt_succ_iff_lt_or_eq.1 hj with hj | rfl
  · exact hbusy j hj
  · exact ⟨t, hrun, hb⟩

/-- One run after another. -/
theorem BusyRun.append {b : Byte} {j k : Nat} {s t u : State} (h : BusyRun b j s t) (h' : BusyRun b k t u) :
    BusyRun b (j + k) s u := by
  induction k generalizing u with
  | zero =>
    obtain ⟨hrun, -⟩ := h'
    cases hrun
    exact h
  | succ k ih =>
    obtain ⟨hrun, hbusy⟩ := h'
    obtain ⟨w, hw, hwb⟩ := hbusy k k.lt_succ_self
    have hlast : engineStep w = .next u := by
      rw [runEngine_append hw, runEngine] at hrun
      cases hstep : engineStep w with
      | next v => simpa only [hstep, runEngine] using hrun
      | fault f => simp only [hstep] at hrun; cases hrun
      | refused r => simp only [hstep] at hrun; cases hrun
    exact (ih ⟨hw, fun i hi => hbusy i (hi.trans k.lt_succ_self)⟩).snoc hwb hlast

/-- A run along which an invariant `I` counts the steps. -/
theorem exists_busyRun {b : Byte} {I : Nat → State → Prop} {s : State} {k : Nat} (h0 : I 0 s)
    (hstep : ∀ j < k, ∀ u, I j u → u.status = b ∧ ∃ v, engineStep u = .next v ∧ I (j + 1) v) :
    ∃ t, BusyRun b k s t ∧ I k t := by
  induction k with
  | zero => exact ⟨s, .refl b s, h0⟩
  | succ k ih =>
    obtain ⟨u, hrun, hu⟩ := ih fun j hj => hstep j (hj.trans k.lt_succ_self)
    obtain ⟨hb, v, hv, hI⟩ := hstep k k.lt_succ_self u hu
    exact ⟨v, hrun.snoc hb hv, hI⟩

/-! ## The shift register -/

/-- At pixel index `k`, `SHIFT` holds what the bytes of `k`'s group before `k` have shifted in, on top of some old value. -/
def ShiftHolds (rd : Reader) (k : Nat) (v : Byte) : Prop := ∃ w, shiftGroup rd (8 * (k / 8)) (k % 8) w = some v

/-- At the beginning nothing need be known of `SHIFT`. -/
theorem shiftHolds_zero (rd : Reader) (v : Byte) : ShiftHolds rd 0 v := ⟨v, rfl⟩

/-- The next pixel byte goes in; at the end of a group the next one begins. -/
theorem ShiftHolds.succ {rd : Reader} {k : Nat} {v p : Byte} (h : ShiftHolds rd k v) (hr : rd k = some p) :
    ShiftHolds rd (k + 1) (shiftIn v p) := by
  obtain ⟨w, hw⟩ := h
  by_cases h7 : k % 8 = 7
  · refine ⟨shiftIn v p, ?_⟩
    rw [show (k + 1) % 8 = 0 by omega, shiftGroup]
  · refine ⟨w, ?_⟩
    rw [show (k + 1) / 8 = k / 8 by omega, show (k + 1) % 8 = k % 8 + 1 by omega, shiftGroup_snoc, hw, Nat.div_add_mod,
      Option.bind_some, hr, Option.map_some]

/-- With a group's last pixel byte `SHIFT` becomes its payload byte (R193, R195). -/
theorem ShiftHolds.unpackByte_eq {rd : Reader} {k : Nat} {v p : Byte} (h : ShiftHolds rd k v) (hr : rd k = some p)
    (h7 : k % 8 = 7) : unpackByte rd (k / 8) = some (shiftIn v p) := by
  obtain ⟨w, hw⟩ := h
  rw [h7] at hw
  refine unpackByte_of_shiftGroup (v := w) ?_
  rw [shiftGroup_snoc, hw, show 8 * (k / 8) + 7 = k by omega, Option.bind_some, hr, Option.map_some]

/-! ## The match flag -/

/-- The first `c` of the bytes `f` gives agree with the token, as far as the token goes. -/
def TokenAgrees (f : Nat → Option Byte) (magic : Magic) (c : Nat) : Prop :=
  ∀ j < c, ∀ b, magic.byteAt j = some b → f j = some b

/-- No bytes agree. -/
theorem tokenAgrees_zero (f : Nat → Option Byte) (magic : Magic) : TokenAgrees f magic 0 :=
  fun j hj => absurd hj j.not_lt_zero

/-- One byte more has to agree. -/
theorem tokenAgrees_succ_iff (f : Nat → Option Byte) (magic : Magic) (c : Nat) :
    TokenAgrees f magic (c + 1) ↔ TokenAgrees f magic c ∧ ∀ b, magic.byteAt c = some b → f c = some b :=
  Nat.forall_lt_succ_right

/-- The token has a byte at 0, 1 and 2. -/
theorem exists_byteAt (magic : Magic) {k : Nat} (hk : k < 3) : ∃ b, magic.byteAt k = some b :=
  ⟨magic.bytes[k], List.getElem?_eq_getElem hk⟩

/-- The token ends after three bytes. -/
theorem byteAt_eq_none (magic : Magic) {k : Nat} (hk : 3 ≤ k) : magic.byteAt k = none :=
  List.getElem?_eq_none hk

/-- Once three bytes are in, to agree is to begin with the token. -/
theorem tokenAgrees_iff {f : Nat → Option Byte} {magic : Magic} {c : Nat} (hc : 3 ≤ c) :
    TokenAgrees f magic c ↔ ∀ k < 3, f k = magic.bytes[k]? := by
  constructor
  · intro h k hk
    obtain ⟨b, hb⟩ := exists_byteAt magic hk
    rw [h k (by omega) b hb]
    exact hb.symm
  · intro h j _ b hb
    have hj : j < 3 := by
      by_contra hge
      rw [byteAt_eq_none magic (by omega)] at hb
      cases hb
    rw [h j hj]
    exact hb

/-- `MATCH` after a comparison says that all bytes so far agree (R24). -/
theorem matchAfter_iff {f : Nat → Option Byte} {magic : Magic} {c : Nat} {old : Bool} {v b : Byte}
    (hold : old = true ↔ TokenAgrees f magic c) (hf : f c = some v) (hb : magic.byteAt c = some b) :
    matchAfter old v b = true ↔ TokenAgrees f magic (c + 1) := by
  rw [tokenAgrees_succ_iff, ← hold]
  simp [matchAfter, hf, hb]

/-! ## `CHECK_MAGIC` -/

/-- `u` is `s` after `k` pixel bytes were probed. -/
def Probing (s : State) (k : Nat) (u : State) : Prop :=
  ∃ v m, ShiftHolds s.pixelReader k v ∧ (m = true ↔ TokenAgrees (unpackByte s.pixelReader) s.magic (k / 8)) ∧
    u = { s with idx := k, shift := v, matched := m }

/-- One pixel byte more is probed; the last of a group leaves its payload byte in `SHIFT`. -/
theorem Probing.probed {s u : State} {k : Nat} {p b : Byte} (h : Probing s k u) (hr : s.src.read k = some p)
    (hb : s.magic.byteAt (k / 8) = some b) :
    Probing s (k + 1) (u.probed p b) ∧ (k % 8 = 7 → unpackByte s.pixelReader (k / 8) = some (u.probed p b).shift) := by
  obtain ⟨v, m, hv, hm, rfl⟩ := h
  have hr' : s.pixelReader k = some p := hr
  refine ⟨⟨shiftIn v p, if k % 8 = 7 then matchAfter m (shiftIn v p) b else m, hv.succ hr', ?_, rfl⟩, hv.unpackByte_eq hr'⟩
  by_cases h7 : k % 8 = 7
  · rw [if_pos h7, show (k + 1) / 8 = k / 8 + 1 by omega]
    exact matchAfter_iff hm (hv.unpackByte_eq hr' h7) hb
  · rw [if_neg h7, show (k + 1) / 8 = k / 8 by omega, hm]

/-- One step of `CHECK_MAGIC` (R193). -/
theorem Probing.engineStep_eq {s u : State} {k : Nat} {p b : Byte} (h : Probing s k u) (hp : s.phase = .checkMagic)
    (hr : s.src.read k = some p) (hb : s.magic.byteAt (k / 8) = some b) :
    engineStep u =
      if k + 1 = 24 then
        if (u.probed p b).matched then .next ((u.probed p b).finish .hide (some .msg))
        else .next { u.probed p b with phase := .streamBits, idx := 0 }
      else .next (u.probed p b) := by
  obtain ⟨v, m, -, -, rfl⟩ := h
  simp only [engineStep, hp, checkMagicStep, hr, hb]
  rfl

/-- Probing leaves `STATUS`. -/
theorem Probing.status_eq {s u : State} {k : Nat} (h : Probing s k u) : u.status = s.status := by
  obtain ⟨v, m, -, -, rfl⟩ := h
  rfl

/-- After 24 pixel bytes `MATCH` is the detector's answer (R97, R193). -/
theorem matched_iff_magicPresent {s : State} {m : Bool} (hn : 24 ≤ s.n)
    (hm : m = true ↔ TokenAgrees (unpackByte s.pixelReader) s.magic 3) :
    m = magicPresent s.pixelReader s.n s.magic := by
  rw [Bool.eq_iff_iff, hm, magicPresent_iff_forall, tokenAgrees_iff le_rfl]
  simp [hn]

/-- What `CHECK_MAGIC` comes to (R193): HIDE ends with `STEG_MSG` where the detector holds, and goes on to the stream
elsewhere. -/
def AfterCheckMagic (s t : State) : Prop :=
  if magicPresent s.pixelReader s.n s.magic then
    t = { s with idx := 24, shift := s.magic.b2 }.finish .hide (some .msg)
  else ∃ v, t = { s with idx := 0, shift := v, matched := false, phase := .streamBits }

/-- Where the detector holds HIDE has ended (R193). -/
theorem AfterCheckMagic.marked {s t : State} (h : AfterCheckMagic s t)
    (hd : magicPresent s.pixelReader s.n s.magic = true) :
    t = { s with idx := 24, shift := s.magic.b2 }.finish .hide (some .msg) := by
  unfold AfterCheckMagic at h
  rwa [if_pos hd] at h

/-- Where the detector does not hold the stream begins at pixel byte 0 (R193). -/
theorem AfterCheckMagic.unmarked {s t : State} (h : AfterCheckMagic s t)
    (hd : magicPresent s.pixelReader s.n s.magic = false) :
    ∃ v, t = { s with idx := 0, shift := v, matched := false, phase := .streamBits } := by
  unfold AfterCheckMagic at h
  rwa [if_neg (by simp [hd])] at h

/-- The 24 steps of `CHECK_MAGIC` decide the detector (R193). -/
theorem checkMagic_busyRun {s : State} (hp : s.phase = .checkMagic) (hi : s.idx = 0) (hm : s.matched = true)
    (hn : 24 ≤ s.n) (hsrc : Written s.src 24) : ∃ t, BusyRun s.status 24 s t ∧ AfterCheckMagic s t := by
  have h0 : Probing s 0 s :=
    ⟨s.shift, s.matched, shiftHolds_zero .., iff_of_true hm (tokenAgrees_zero _ _), by rw [← hi]⟩
  have hprobe : ∀ k < 24, ∃ p b, s.src.read k = some p ∧ s.magic.byteAt (k / 8) = some b := fun k hk => by
    obtain ⟨p, hr⟩ := Option.isSome_iff_exists.1 (hsrc k hk)
    obtain ⟨b, hb⟩ := exists_byteAt s.magic (k := k / 8) (by omega)
    exact ⟨p, b, hr, hb⟩
  obtain ⟨u, hrun, hu⟩ := exists_busyRun (b := s.status) (k := 23) h0 fun j hj u hu => by
    obtain ⟨p, b, hr, hb⟩ := hprobe j (by omega)
    exact ⟨hu.status_eq, _, (hu.engineStep_eq hp hr hb).trans (if_neg (by omega)), (hu.probed hr hb).1⟩
  obtain ⟨p, b, hr, hb⟩ := hprobe 23 (by decide)
  have hstep := (hu.engineStep_eq hp hr hb).trans (if_pos rfl)
  obtain ⟨⟨v, m, -, hv, hprobed⟩, hlast⟩ := hu.probed hr hb
  rw [hprobed] at hlast hstep
  have hdetect := matched_iff_magicPresent hn hv
  refine ⟨_, hrun.snoc hu.status_eq (hstep.trans (apply_ite Host.Outcome.next ..).symm), ?_⟩
  cases hd : magicPresent s.pixelReader s.n s.magic with
  | true =>
    obtain ⟨-, -, -, h2⟩ := (magicPresent_iff ..).1 hd
    have hshift : s.magic.b2 = v := Option.some.inj (h2.symm.trans (hlast rfl))
    simp only [AfterCheckMagic, hd, hdetect, if_true, hshift, ← hm]
  | false =>
    simp only [AfterCheckMagic, hd, hdetect, Bool.false_eq_true, if_false]
    exact ⟨v, rfl⟩

end Sys2Proof.Machine
end

section
open Sys2Proof Sys2Proof.Machine

/-- Settles O57: after each group `SHIFT` is its payload byte and `MATCH` says that all payload bytes so far agree with the
token, which after three groups is the detector. -/
theorem checkMagicPhase : Obligations.CheckMagicPhase := by
  unfold Obligations.CheckMagicPhase
  obtain ⟨-, -, hmsg, -⟩ := status_values
  intro s hp hi hm hn hsrc
  obtain ⟨t, ⟨hrun, -⟩, hafter⟩ := checkMagic_busyRun hp hi hm hn hsrc
  refine ⟨t, hrun, ?_⟩
  cases hd : magicPresent s.pixelReader s.n s.magic with
  | true => rw [if_pos rfl, hafter.marked hd, State.finish, hmsg]
  | false =>
    obtain ⟨v, rfl⟩ := hafter.unmarked hd
    rfl

end

section
/-! PROOFS. The step-level HIDE ends in the architectural result (R194, R196, R197). -/

namespace Sys2Proof.Machine

/-! ## HIDE's stream -/

/-- HIDE's stream produces the embedded byte (R194, R95). -/
theorem hideOutput_eq {s : State} {m : List Byte} (hm : s.message = some m) (hf : s.flen = s.msgLen + 4) (p : Byte) :
    s.hideOutput p = .byte (embedByte (frame s.magic m) s.idx p) := by
  have hlen : (frame s.magic m).length = s.flen := by rw [length_frame, ((message_eq_some_iff s m).1 hm).1, hf]
  unfold State.hideOutput embedByte
  by_cases hi : s.idx < 8 * s.flen
  · obtain ⟨v, hv, hfv⟩ := frameByte_eq hm hf (k := s.idx / 8) (by omega)
    simp only [if_pos hi, hv, framebit, hfv, Option.map_some]
  · simp only [if_neg hi, framebit_eq_none (f := frame s.magic m) (i := s.idx) (by omega)]

/-- One step of HIDE's stream: it ends the command at pixel byte `N` (R194). -/
theorem engineStep_hideStream {u : State} {p d : Byte} (hp : u.phase = .streamBits) (ho : statusOp u.status = 1)
    (hr : u.src.read u.idx = some p) (hd : u.hideOutput p = .byte d) :
    engineStep u =
      if u.idx + 1 = u.n then .next ({ u with dst := u.dst.write u.idx d, idx := u.idx + 1 }.finish .hide none)
      else .next { u with dst := u.dst.write u.idx d, idx := u.idx + 1 } := by
  simp only [engineStep, hp, ho, if_true, hideStreamStep, hr, hd]

/-- `u` is `s` after the first `k` bytes of `d` were streamed to `DST`. -/
def Streaming (s : State) (d : List Byte) (k : Nat) (u : State) : Prop :=
  u = { s with dst := s.dst.writeBytes 0 (d.take k), idx := k }

/-- One step of HIDE's stream writes the next embedded byte; the last one ends the command (R194). -/
theorem Streaming.engineStep_eq {s u : State} {m px : List Byte} {k : Nat}
    (h : Streaming s (embed px (frame s.magic m)) k u) (hp : s.phase = .streamBits) (ho : statusOp s.status = 1)
    (hm : s.message = some m) (hf : s.flen = s.msgLen + 4) (hpx : s.pixels = some px) (hk : k < s.n) :
    ∃ v, Streaming s (embed px (frame s.magic m)) (k + 1) v ∧
      engineStep u = if k + 1 = s.n then .next (v.finish .hide none) else .next v := by
  obtain ⟨hlen, hread⟩ := (pixels_eq_some_iff s px).1 hpx
  have hpk : px[k]? = some px[k] := List.getElem?_eq_getElem (hlen ▸ hk)
  have hd : (embed px (frame s.magic m))[k]? = some (embedByte (frame s.magic m) k px[k]) := by
    rw [getElem?_embed, hpk, Option.map_some]
  have hdst : (s.dst.writeBytes 0 ((embed px (frame s.magic m)).take k)).write k (embedByte (frame s.magic m) k px[k]) =
      s.dst.writeBytes 0 ((embed px (frame s.magic m)).take (k + 1)) := by
    have htake : (embed px (frame s.magic m)).take (k + 1) =
        (embed px (frame s.magic m)).take k ++ [embedByte (frame s.magic m) k px[k]] := by
      rw [List.take_add_one, hd]
      rfl
    have hklen : ((embed px (frame s.magic m)).take k).length = k := List.length_take_of_le (by rw [length_embed]; omega)
    rw [htake, writeBytes_snoc, hklen, Nat.zero_add]
  refine ⟨_, rfl, ?_⟩
  rw [← hdst]
  subst h
  exact engineStep_hideStream hp ho ((hread k hk).trans hpk) (hideOutput_eq (s := { s with dst := _, idx := k }) hm hf px[k])

/-- The stream embeds all `N` pixel bytes, one a step, and ends the command (R194). -/
theorem stream_busyRun {s : State} {m px : List Byte} (hp : s.phase = .streamBits) (ho : statusOp s.status = 1)
    (hi : s.idx = 0) (hm : s.message = some m) (hf : s.flen = s.msgLen + 4) (hpx : s.pixels = some px) (hn : 0 < s.n) :
    BusyRun s.status s.n s
      ({ s with dst := s.dst.writeBytes 0 (embed px (frame s.magic m)), idx := s.n }.finish .hide none) := by
  have hlen := ((pixels_eq_some_iff s px).1 hpx).1
  obtain ⟨k, hk⟩ : ∃ k, s.n = k + 1 := ⟨s.n - 1, by omega⟩
  have h0 : Streaming s (embed px (frame s.magic m)) 0 s := by
    unfold Streaming
    rw [List.take_zero, Memory.writeBytes, ← hi]
  obtain ⟨u, hrun, hu⟩ := exists_busyRun (b := s.status) (k := k) h0 fun j hj u hu => by
    obtain ⟨v, hv, hstep⟩ := hu.engineStep_eq hp ho hm hf hpx (by omega)
    exact ⟨by rw [hu], v, hstep.trans (if_neg (by omega)), hv⟩
  obtain ⟨v, hv, hstep⟩ := hu.engineStep_eq hp ho hm hf hpx (by omega)
  have hend := hrun.snoc (by rw [hu]) (hstep.trans (if_pos hk.symm))
  rw [hv, List.take_of_length_le (by rw [length_embed]; omega), ← hk] at hend
  exact hend

/-! ## The whole of HIDE -/

/-- Where the frame fits, one step brings HIDE to `CHECK_MAGIC` (R192). -/
theorem hide_busyRun_of_fits {s : State} (hfit : 8 * (s.msgLen + 4) ≤ s.n) :
    BusyRun (s.started .hide).status 1 (s.started .hide)
      { s.started .hide with flen := s.msgLen + 4, phase := .checkMagic } :=
  (BusyRun.refl ..).snoc rfl (engineStep_checkCapacity_of_fits rfl hfit)

/-- Where the frame fits, the probe of the source takes 24 steps more (R193). -/
theorem hide_busyRun_checkMagic {s : State} {px : List Byte} (hfit : 8 * (s.msgLen + 4) ≤ s.n) (hpx : s.pixels = some px) :
    ∃ t, BusyRun (s.started .hide).status (1 + 24) (s.started .hide) t ∧
      AfterCheckMagic { s.started .hide with flen := s.msgLen + 4, phase := .checkMagic } t := by
  have hsrc : Written s.src 24 := fun i hi => (written_iff_readBytes ..).2 ⟨px, hpx⟩ i (by omega)
  obtain ⟨t, hrun, hafter⟩ := checkMagic_busyRun
    (s := { s.started .hide with flen := s.msgLen + 4, phase := .checkMagic }) rfl rfl rfl (show 24 ≤ s.n by omega) hsrc
  exact ⟨t, (hide_busyRun_of_fits hfit).append hrun, hafter⟩

/-- The step level ends HIDE as the architectural level does, with `STATUS` at `BUSY` before, in the steps R197 gives. -/
theorem HideOutcome.busyRun {s t : State} (h : HideOutcome s t) :
    ∃ u, BusyRun (s.started .hide).status (if t.status = 0x26 then 1 else if t.status = 0x2A then 1 + 24 else 1 + 24 + s.n)
      (s.started .hide) u ∧ u.hostView = t.hostView ∧ u.phase = .done := by
  obtain ⟨hok, htooBig, hmsg, -⟩ := status_values
  cases h with
  | tooBig m hm hc ht =>
    subst ht
    rw [finish_status, htooBig, if_pos rfl]
    exact ⟨_, (BusyRun.refl ..).snoc rfl (engineStep_checkCapacity_of_not_fits rfl hc), rfl, rfl⟩
  | marked m px hm hc hpx hd ht =>
    subst ht
    obtain ⟨u, hrun, hafter⟩ := hide_busyRun_checkMagic hc hpx
    obtain rfl := hafter.marked hd
    rw [finish_status, hmsg, if_neg (by decide), if_pos rfl]
    exact ⟨_, hrun, rfl, rfl⟩
  | embedded m px hm hc hpx hd ht =>
    subst ht
    obtain ⟨u, hrun, hafter⟩ := hide_busyRun_checkMagic hc hpx
    obtain ⟨v, rfl⟩ := hafter.unmarked hd
    rw [finish_status, hok, if_neg (by decide), if_neg (by decide)]
    have hstream := stream_busyRun (m := m) (px := px)
      (s := { s.started .hide with flen := s.msgLen + 4, shift := v, matched := false, phase := .streamBits })
      rfl (statusOp_statusByte ..) rfl hm rfl hpx (show 0 < s.n by omega)
    exact ⟨_, hrun.append hstream, rfl, rfl⟩

end Sys2Proof.Machine
end

section
open Sys2Proof Sys2Proof.Machine

/-- Settles O58: along the capacity step, the 24 probing steps and the stream `STATUS` stays `0x21`, and each of HIDE's three
outcomes is where its run ends. -/
theorem hideStepLevelRefines : Obligations.HideStepLevelRefines := by
  unfold Obligations.HideStepLevelRefines
  obtain ⟨-, -, -, -, -, -, hbusy, -⟩ := status_values
  intro s t hexec
  obtain ⟨-, houtcome⟩ := (exec_hide_eq_next_iff s t).1 hexec
  obtain ⟨u, ⟨hrun, hall⟩, hview, hdone⟩ := houtcome.busyRun
  rw [started_status, hbusy] at hall
  exact ⟨u, startCommand_of_admitted ((admitted_hide_iff s).2 ⟨t, hexec⟩), hrun, hview, hdone, hall⟩

end

section
/-! PROOFS. The step-level UNHIDE ends in the architectural result (R195, R196, R197). -/

namespace Sys2Proof.Machine

/-! ## UNHIDE's stream -/

/-- One step of UNHIDE's stream, inside a whole group (R195). -/
theorem engineStep_unhideStream {u : State} {p : Byte} (hp : u.phase = .streamBits) (ho : statusOp u.status = 2)
    (hi : u.idx % 8 = 0 → 8 ≤ u.n - u.idx) (hr : u.src.read u.idx = some p) : engineStep u = .next (u.shifted p) := by
  have h1 : ¬(2 : BitVec 2) = 1 := by decide
  have hmore : ¬(u.idx % 8 = 0 ∧ u.n - u.idx < 8) := by omega
  simp only [engineStep, hp, ho, h1, if_false, if_true, unhideStreamStep, hmore, hr]

/-- At a group boundary with no whole group left the stream is exhausted (R195). -/
theorem engineStep_exhausted {u : State} (hp : u.phase = .streamBits) (ho : statusOp u.status = 2) (hi : u.idx % 8 = 0)
    (hn : u.n - u.idx < 8) : engineStep u = .next ({ u with outLen := 0 }.finish .unhide (some .badMsg)) := by
  have h1 : ¬(2 : BitVec 2) = 1 := by decide
  simp only [engineStep, hp, ho, h1, if_false, if_true, unhideStreamStep, hi, hn, and_self, unhideError_eq]

/-- After a payload byte that is no terminator `MATCH` says that all bytes so far agree with the token, as far as it goes
(R24, R195). -/
theorem matched_shifted_iff {u : State} {p : Byte} {f : Nat → Option Byte} (h7 : u.idx % 8 = 7)
    (hne : shiftIn u.shift p ≠ term) (hm : u.matched = true ↔ TokenAgrees f u.magic u.accLen)
    (hf : f u.accLen = some (shiftIn u.shift p)) :
    (u.shifted p).matched = true ↔ TokenAgrees f u.magic (u.accLen + 1) := by
  cases hb : u.magic.byteAt u.accLen with
  | some b =>
    have hmatch : (u.shifted p).matched = matchAfter u.matched (shiftIn u.shift p) b := by
      simp [State.shifted, State.payload, h7, hne, hb]
    rw [hmatch]
    exact matchAfter_iff hm hf hb
  | none =>
    have hmatch : (u.shifted p).matched = u.matched := by simp [State.shifted, State.payload, h7, hne, hb]
    rw [hmatch, hm, tokenAgrees_succ_iff]
    simp [hb]

/-- `s` with `k` pixel bytes streamed: `SHIFT` is `v`, `MATCH` is `m`, and the whole groups' bytes of `P` are in `ACC`. -/
def State.streamed (s : State) (P : List Byte) (k : Nat) (v : Byte) (m : Bool) : State :=
  { s with idx := k, shift := v, matched := m, acc := s.acc.writeBytes 0 (P.take (k / 8)), accLen := k / 8 }

/-- `u` is `s` after `k` pixel bytes were streamed, with `P` the payload bytes before the terminator. -/
def Decoding (s : State) (P : List Byte) (k : Nat) (u : State) : Prop :=
  ∃ v m, ShiftHolds s.pixelReader k v ∧ (m = true ↔ TokenAgrees (fun j => P[j]?) s.magic (k / 8)) ∧
    u = s.streamed P k v m

/-- At START nothing is decoded (R191). -/
theorem decoding_started (s : State) (P : List Byte) : Decoding (s.started .unhide) P 0 (s.started .unhide) :=
  ⟨0, true, shiftHolds_zero .., iff_of_true rfl (tokenAgrees_zero _ _), rfl⟩

/-- One pixel byte more goes in, where it completes no group or completes a byte of `P` (R195). -/
theorem Decoding.shifted {s u : State} {P : List Byte} {k : Nat} {p : Byte} (h : Decoding s P k u)
    (hr : s.src.read k = some p) (hP : ∀ v ∈ P, v ≠ term)
    (hgroup : k % 8 = 7 → k / 8 < P.length ∧ unpackByte s.pixelReader (k / 8) = P[k / 8]?) :
    Decoding s P (k + 1) (u.shifted p) := by
  obtain ⟨v, m, hv, hm, rfl⟩ := h
  have hr' : s.pixelReader k = some p := hr
  by_cases h7 : k % 8 = 7
  · obtain ⟨hlt, hpay⟩ := hgroup h7
    have hbyte : P[k / 8]? = some (shiftIn v p) := hpay.symm.trans (hv.unpackByte_eq hr' h7)
    have hne : shiftIn v p ≠ term := hP _ (List.mem_of_getElem? hbyte)
    have hdiv : (k + 1) / 8 = k / 8 + 1 := by omega
    have hmatch := matched_shifted_iff (u := s.streamed P k v m) (p := p) (f := fun j => P[j]?) h7 hne hm hbyte
    refine ⟨shiftIn v p, ((s.streamed P k v m).shifted p).matched, hv.succ hr', by rwa [hdiv], ?_⟩
    obtain ⟨h7', -⟩ | ⟨-, hz, -⟩ | ⟨-, -, ht⟩ := shifted_cases (s.streamed P k v m) p
    · exact absurd h7 h7'
    · exact absurd hz hne
    · have htake : P.take (k / 8 + 1) = P.take (k / 8) ++ [shiftIn v p] := by
        rw [List.take_add_one, hbyte]
        rfl
      have hacc : s.acc.writeBytes 0 (P.take (k / 8 + 1)) =
          (s.acc.writeBytes 0 (P.take (k / 8))).write (k / 8) (shiftIn v p) := by
        rw [htake, writeBytes_snoc, List.length_take_of_le hlt.le, Nat.zero_add]
      refine ht.trans ?_
      simp only [State.streamed, hdiv, hacc]
  · have hdiv : (k + 1) / 8 = k / 8 := by omega
    refine ⟨shiftIn v p, m, hv.succ hr', by rwa [hdiv], ?_⟩
    obtain ⟨-, ht⟩ | ⟨h7', -⟩ | ⟨h7', -⟩ := shifted_cases (s.streamed P k v m) p
    · refine ht.trans ?_
      simp only [State.streamed, hdiv]
    · exact absurd h7' h7
    · exact absurd h7' h7

/-- The terminator's last pixel byte ends the stream and leaves `ACC` as it is (R195). -/
theorem Decoding.shifted_term {s u : State} {P : List Byte} {p : Byte} (h : Decoding s P (8 * P.length + 7) u)
    (hr : s.src.read (8 * P.length + 7) = some p) (hterm : unpackByte s.pixelReader P.length = some term) :
    ∃ m, (m = true ↔ TokenAgrees (fun j => P[j]?) s.magic P.length) ∧
      u.shifted p = { s with
        idx := 8 * P.length + 8, shift := term, matched := m, acc := s.acc.writeBytes 0 P, accLen := P.length,
        foundNul := true, phase := .validate } := by
  obtain ⟨v, m, hv, hm, rfl⟩ := h
  have hdiv : (8 * P.length + 7) / 8 = P.length := by omega
  have h7 : (8 * P.length + 7) % 8 = 7 := by omega
  have hz : shiftIn v p = term := by
    rw [← hdiv, hv.unpackByte_eq hr h7] at hterm
    exact Option.some.inj hterm
  refine ⟨m, hdiv ▸ hm, ?_⟩
  obtain ⟨h7', -⟩ | ⟨-, -, ht⟩ | ⟨-, hne, -⟩ := shifted_cases (s.streamed P (8 * P.length + 7) v m) p
  · exact absurd h7 h7'
  · refine ht.trans ?_
    simp only [State.streamed, hdiv, List.take_length]
  · exact absurd hz hne

/-- A byte of a group that unpacks can be read. -/
theorem exists_read_of_unpackByte {s : State} {k : Nat} (h : (unpackByte s.pixelReader (k / 8)).isSome) :
    ∃ p, s.src.read k = some p := by
  have hread := (unpackByte_isSome_iff ..).1 h (k % 8) (Nat.mod_lt _ (by decide))
  rw [Nat.div_add_mod] at hread
  exact Option.isSome_iff_exists.1 hread

/-- The stream runs on as long as it finds whole groups, each of them a byte of `P` or not yet complete (R195). -/
theorem decoding_busyRun {s : State} {P : List Byte} {k : Nat} (hP : ∀ v ∈ P, v ≠ term)
    (hbytes : ∀ j < P.length, unpackByte s.pixelReader j = P[j]?)
    (hgroups : ∀ j < k, 8 * (j / 8) + 8 ≤ s.n ∧ (unpackByte s.pixelReader (j / 8)).isSome ∧ (j % 8 = 7 → j / 8 < P.length)) :
    ∃ u, BusyRun (s.started .unhide).status k (s.started .unhide) u ∧ Decoding (s.started .unhide) P k u := by
  refine exists_busyRun (decoding_started s P) fun j hj u hu => ?_
  obtain ⟨hroom, hsome, hcomplete⟩ := hgroups j hj
  obtain ⟨p, hr⟩ := exists_read_of_unpackByte hsome
  have hnext := hu.shifted hr hP fun h7 => ⟨hcomplete h7, hbytes _ (hcomplete h7)⟩
  obtain ⟨v, m, -, -, rfl⟩ := hu
  refine ⟨rfl, _, engineStep_unhideStream rfl (statusOp_statusByte ..) (fun h0 => ?_) hr, hnext⟩
  have h0 : j % 8 = 0 := h0
  show 8 ≤ s.n - j
  omega

/-! ## `VALIDATE` -/

/-- Fewer than three bytes, or other bytes than the token, are rejected (R196). -/
theorem engineStep_rejects {u : State} (hp : u.phase = .validate) (h : u.accLen < 3 ∨ u.matched = false) :
    engineStep u = .next ({ u with outLen := 0 }.finish .unhide (some .noMsg)) := by
  simp only [engineStep, hp, validateStep]
  exact if_pos h

/-- What stands in `ACC` behind the token is delivered (R196). -/
theorem engineStep_delivers {u : State} {out : List Byte} (hp : u.phase = .validate) (hk : 3 ≤ u.accLen)
    (hm : u.matched = true) (hr : u.acc.readBytes 3 (u.accLen - 3) = some out) :
    engineStep u = .next ({ u with mout := u.mout.writeBytes 0 out, outLen := u.accLen - 3 }.finish .unhide none) := by
  have haccept : ¬(u.accLen < 3 ∨ u.matched = false) := by simp [hm, hk]
  simp only [engineStep, hp, validateStep, if_neg haccept, hr]

/-- `ACC_LEN` and `MATCH` after the stream decide what the validator decides (R99, R196). -/
theorem validate_iff_matched {P : List Byte} {magic : Magic} {m : Bool}
    (hm : m = true ↔ TokenAgrees (fun j => P[j]?) magic P.length) :
    validate P magic = true ↔ 3 ≤ P.length ∧ m = true := by
  rw [validate_iff_forall]
  refine and_congr_right fun hlen => ?_
  rw [hm, tokenAgrees_iff hlen]

/-- The bytes written to `ACC` are read back behind the token. -/
theorem readBytes_writeBytes_drop (m : Memory) (P : List Byte) :
    (m.writeBytes 0 P).readBytes 3 (P.length - 3) = some (P.drop 3) := by
  refine (readBytes_eq_some_iff ..).2 ⟨List.length_drop, fun j hj => ?_⟩
  rw [read_writeBytes_zero, if_pos (by omega), List.getElem?_drop]

/-! ## The whole of UNHIDE -/

/-- What an exhausted scan says (R98). -/
theorem payload_of_scan_exhausted {rd : Reader} {n : Nat} {P : List Byte} (h : scan rd n = some ⟨P, false⟩) :
    (∀ j < P.length, unpackByte rd j = P[j]?) ∧ (∀ v ∈ P, v ≠ term) ∧ P.length = n / 8 :=
  (scan_eq_some_iff ..).1 h

/-- What a scan that found a terminator says (R98). -/
theorem payload_of_scan_found {rd : Reader} {n : Nat} {P : List Byte} (h : scan rd n = some ⟨P, true⟩) :
    (∀ j < P.length, unpackByte rd j = P[j]?) ∧ (∀ v ∈ P, v ≠ term) ∧ P.length < n / 8 ∧
      unpackByte rd P.length = some term :=
  (scan_eq_some_iff ..).1 h

/-- Without a terminator all whole groups are streamed, and one step more finds the buffer exhausted (R133, R197). -/
theorem unhide_busyRun_of_exhausted {s : State} {P : List Byte} (hscan : scan s.pixelReader s.n = some ⟨P, false⟩) :
    ∃ u, BusyRun (s.started .unhide).status (8 * (s.n / 8) + 1) (s.started .unhide)
      ({ u with outLen := 0 }.finish .unhide (some .badMsg)) ∧ Decoding (s.started .unhide) P (8 * (s.n / 8)) u := by
  obtain ⟨hbytes, hP, hlen⟩ := payload_of_scan_exhausted hscan
  obtain ⟨u, hrun, hu⟩ := decoding_busyRun (k := 8 * (s.n / 8)) hP hbytes fun j hj => by
    refine ⟨by omega, ?_, fun _ => by omega⟩
    have hlt : j / 8 < P.length := by omega
    rw [hbytes _ hlt, List.getElem?_eq_getElem hlt]
    rfl
  refine ⟨u, hrun.snoc ?_ (engineStep_exhausted ?_ ?_ ?_ ?_), hu⟩
  all_goals obtain ⟨v, m, -, -, rfl⟩ := hu
  · rfl
  · rfl
  · exact statusOp_statusByte ..
  · exact Nat.mul_mod_right 8 _
  · show s.n - 8 * (s.n / 8) < 8
    omega

/-- With a terminator the stream ends on its group, in `VALIDATE` (R195, R197). -/
theorem unhide_busyRun_of_found {s : State} {P : List Byte} (hscan : scan s.pixelReader s.n = some ⟨P, true⟩) :
    ∃ m, (validate P s.magic = true ↔ 3 ≤ P.length ∧ m = true) ∧
      BusyRun (s.started .unhide).status (8 * (P.length + 1)) (s.started .unhide) { s.started .unhide with
        idx := 8 * P.length + 8, shift := term, matched := m, acc := s.acc.writeBytes 0 P, accLen := P.length,
        foundNul := true, phase := .validate } := by
  obtain ⟨hbytes, hP, hlen, hterm⟩ := payload_of_scan_found hscan
  have hsome : ∀ j ≤ P.length, (unpackByte s.pixelReader j).isSome := fun j hj => by
    rcases Nat.lt_or_eq_of_le hj with hlt | rfl
    · rw [hbytes j hlt, List.getElem?_eq_getElem hlt]
      rfl
    · rw [hterm]
      rfl
  obtain ⟨u, hrun, hu⟩ := decoding_busyRun (k := 8 * P.length + 7) hP hbytes fun j hj =>
    ⟨by omega, hsome _ (by omega), fun _ => by omega⟩
  obtain ⟨p, hr⟩ := exists_read_of_unpackByte (s := s) (k := 8 * P.length + 7) (hsome _ (by omega))
  obtain ⟨m, hm, hlast⟩ := hu.shifted_term hr hterm
  refine ⟨m, validate_iff_matched hm, ?_⟩
  have hstep : u.status = (s.started .unhide).status ∧ engineStep u = .next (u.shifted p) := by
    obtain ⟨v, m, -, -, rfl⟩ := hu
    refine ⟨rfl, engineStep_unhideStream rfl (statusOp_statusByte ..) (fun h0 => ?_) hr⟩
    have h0 : (8 * P.length + 7) % 8 = 0 := h0
    omega
  obtain ⟨hstatus, hnext⟩ := hstep
  exact hrun.snoc hstatus (hlast ▸ hnext)

/-- The step level ends UNHIDE as the architectural level does, with `STATUS` at `BUSY` before, in the steps R197 gives. -/
theorem UnhideOutcome.busyRun {s t : State} {r : Scan} (hscan : scan s.pixelReader s.n = some r) (h : UnhideOutcome s t r) :
    ∃ u, BusyRun (s.started .unhide).status (if t.foundNul then 8 * (t.accLen + 1) + 1 else 8 * (s.n / 8) + 1)
      (s.started .unhide) u ∧ u.hostView = t.hostView ∧ u.phase = .done ∧ u.acc = t.acc ∧ u.accLen = t.accLen ∧
        u.foundNul = t.foundNul := by
  obtain ⟨P, found⟩ := r
  cases h with
  | badMsg hf ht =>
    subst ht
    obtain rfl : found = false := hf
    obtain ⟨-, -, hlen⟩ := payload_of_scan_exhausted hscan
    obtain ⟨u, hrun, v, m, -, -, rfl⟩ := unhide_busyRun_of_exhausted hscan
    refine ⟨_, hrun, rfl, rfl, ?_, ?_, rfl⟩
    · show s.acc.writeBytes 0 (P.take (8 * (s.n / 8) / 8)) = s.acc.writeBytes 0 P
      rw [List.take_of_length_le (by omega)]
    · show 8 * (s.n / 8) / 8 = P.length
      omega
  | noMsg hf hv ht =>
    subst ht
    obtain rfl : found = true := hf
    obtain ⟨m, hm, hrun⟩ := unhide_busyRun_of_found hscan
    refine ⟨_, hrun.snoc rfl (engineStep_rejects rfl ?_), rfl, rfl, rfl, rfl, rfl⟩
    show P.length < 3 ∨ m = false
    rw [← Nat.not_le, ← Bool.not_eq_true, ← not_and_or, ← hm]
    exact Bool.not_eq_true _ ▸ hv
  | message hf hv ht =>
    subst ht
    obtain rfl : found = true := hf
    obtain ⟨m, hm, hrun⟩ := unhide_busyRun_of_found hscan
    obtain ⟨hthree, hmatch⟩ := hm.1 hv
    have hout := readBytes_writeBytes_drop s.acc P
    exact ⟨_, hrun.snoc rfl (engineStep_delivers rfl hthree hmatch hout), rfl, rfl, rfl, rfl, rfl⟩

end Sys2Proof.Machine
end

section
open Sys2Proof Sys2Proof.Machine

/-- Settles O59: along the stream `ACC` holds the bytes the scan decodes and `MATCH` says whether they agree with the token, so
each of UNHIDE's three outcomes is where its run ends. -/
theorem unhideStepLevelRefines : Obligations.UnhideStepLevelRefines := by
  unfold Obligations.UnhideStepLevelRefines
  obtain ⟨-, -, -, -, -, -, -, hbusy⟩ := status_values
  intro s t hexec
  obtain ⟨-, r, hscan, houtcome⟩ := (exec_unhide_eq_next_iff s t).1 hexec
  obtain ⟨u, ⟨hrun, hall⟩, hview, hdone, hacc, hlen, hfound⟩ := houtcome.busyRun hscan
  rw [started_status, hbusy] at hall
  exact ⟨u, startCommand_of_admitted ((admitted_unhide_iff s).2 ⟨t, hexec⟩), hrun, hview, hdone, hacc, hlen, hfound, hall⟩

end

section
/-! PROOFS. Command words (R76), the pending command (R26), reset (R180), the host's registers and buffers (R25, R32, R40), the
wait states (R166) and the error texts (R80). -/

namespace Sys2Proof

/-- The word of a command decodes to it (R76). -/
@[simp] theorem decode_encode (i : Instr) : decode (encode i) = .ok i := by cases i <;> decide

/-- Each command has one word, and each word at most one command (R76). -/
theorem decode_eq_ok_iff (c : Byte) (i : Instr) : decode c = .ok i ↔ c = encode i := by
  refine ⟨fun hd => ?_, fun hc => hc ▸ decode_encode i⟩
  by_cases h1 : c = encode .hide
  · rw [h1, decode_encode] at hd
    rw [h1, Except.ok.inj hd]
  · by_cases h2 : c = encode .unhide
    · rw [h2, decode_encode] at hd
      rw [h2, Except.ok.inj hd]
    · rw [decode_eq_reserved h1 h2] at hd
      cases hd

namespace Machine

/-! ## Steps by what is due -/

/-- A pending word that names no command is refused (R77). -/
theorem advance_of_reserved {accept : Instr → State → Result} {s : State} {c : Byte} (hc : s.cmd ≠ 0)
    (hd : decode s.cmd = .error (.reservedOpcode c)) : advance accept s = .refused (.reservedOpcode c) := by
  simp only [advance, hc, if_false, takeCommand, hd]

/-- With no command pending the host makes its next move, unless it waits (R20). -/
theorem advance_of_hostMove {accept : Instr → State → Result} {s : State} {m : HostMove} {rest : List HostMove}
    (hc : s.cmd = 0) (hi : s.inbox = m :: rest) (hm : m ≠ .wait) :
    advance accept s = hostMove m { s with inbox := rest } := by
  simp only [advance, hc, if_true, hostTurn, hi, hm, false_and, if_false]

/-- With no command pending and no move of the host the engine moves (R61). -/
theorem advance_of_no_move {accept : Instr → State → Result} {s : State} (hc : s.cmd = 0) (hi : s.inbox = []) :
    advance accept s = engineStep s := by
  simp only [advance, hc, if_true, hostTurn, hi]

/-- In `IDLE` and `DONE` the engine waits (R166). -/
theorem engineStep_of_resting_phase {s : State} (h : s.phase = .idle ∨ s.phase = .done) : engineStep s = .next s := by
  rcases h with h | h <;> simp only [engineStep, h]

/-! ## After reset -/

/-- Every buffer holds nothing (R7). -/
@[simp] theorem capAllows_zero (cap : Option Nat) : capAllows cap 0 = true := by cases cap <;> rfl

/-- After reset a command may start (R180). -/
theorem startOk_applyReset (s : State) : StartOk s.applyReset := ⟨rfl, capAllows_zero _⟩

/-- After reset HIDE is admitted, with the empty message (R180). -/
theorem hideStartOk_applyReset (s : State) : HideStartOk s.applyReset :=
  ⟨startOk_applyReset s, capAllows_zero _, fun i hi => absurd hi i.not_lt_zero⟩

/-! ## The host's registers -/

/-- A read of a register that exists (R25). -/
theorem hostMove_readReg_of_some {s : State} {no v : Nat} (hs : s.resting = true ∨ no = 1) (hv : s.regRead no = some v) :
    hostMove (.readReg no) s = .next { s with hostRead := some v } := by
  have hallow : ¬(!s.resting && no != 1) = true := by rcases hs with hs | hs <;> simp [hs]
  simp only [hostMove, hostReadReg, if_neg hallow, hv]

/-- A read of a register that does not exist (R25). -/
theorem hostMove_readReg_of_none {s : State} {no : Nat} (hs : s.resting = true) (hv : s.regRead no = none) :
    hostMove (.readReg no) s = .refused (.noSuchRegister no) := by
  simp [hostMove, hostReadReg, hs, hv]

/-- In `BUSY` no register but `STATUS` is read (R40). -/
theorem hostMove_readReg_of_running {s : State} {no : Nat} (hs : s.resting = false) (hno : no ≠ 1) :
    hostMove (.readReg no) s = .refused .hostAccessWhileBusy := by
  simp [hostMove, hostReadReg, hs, hno]

/-- The register map ends at 7 (R25). -/
theorem regRead_eq_none (s : State) {no : Nat} (h : 8 ≤ no) : s.regRead no = none := by
  obtain ⟨k, rfl⟩ := Nat.exists_eq_add_of_le' h
  rfl

/-- No number above 7 is a token register (R25, R31). -/
theorem setMagic_eq_none (s : State) (b : Byte) {no : Nat} (h : 8 ≤ no) : s.setMagic no b = none := by
  obtain ⟨k, rfl⟩ := Nat.exists_eq_add_of_le' h
  rfl

/-- In `BUSY` no register is written (R40). -/
theorem hostMove_writeReg_of_running {s : State} {no : Nat} (hs : s.resting = false) (v : Nat) :
    hostMove (.writeReg no v) s = .refused (if no = 0 then .commandWhileBusy else .hostAccessWhileBusy) := by
  simp [hostMove, hostWriteReg, hs]

/-- A write above register 4 is a write of a token register (R25). -/
theorem hostMove_writeReg_of_resting {s : State} {no : Nat} (hs : s.resting = true) (hno : 5 ≤ no) (v : Nat) :
    hostMove (.writeReg no v) s = hostWriteMagic no v s := by
  obtain ⟨k, rfl⟩ := Nat.exists_eq_add_of_le' hno
  simp [hostMove, hostWriteReg, hs]

/-- A byte written to a token register is taken (R25, R31). -/
theorem hostMove_writeReg_of_setMagic {s t : State} {no : Nat} {b : Byte} (hs : s.resting = true) (hno : 5 ≤ no)
    (ht : s.setMagic no b = some t) : hostMove (.writeReg no b.toNat) s = .next t := by
  simp only [hostMove_writeReg_of_resting hs hno, hostWriteMagic, BitVec.ofNat_toNat, BitVec.setWidth_eq, ht, if_pos b.isLt]

/-- A write of a register that does not exist is refused (R25). -/
theorem hostMove_writeReg_of_no_register {s : State} {no : Nat} (hs : s.resting = true) (hno : 8 ≤ no) (v : Nat) :
    hostMove (.writeReg no v) s = .refused (.noSuchRegister no) := by
  simp only [hostMove_writeReg_of_resting hs (by omega : 5 ≤ no), hostWriteMagic, setMagic_eq_none s _ hno]

/-- A write that names no register, or a value its register does not hold, is refused (R12, R25). -/
theorem hostMove_writeReg_of_ill_formed {no v : Nat} (h : (regExists no && regHolds no v) = false) (s : State) :
    ∃ r, hostMove (.writeReg no v) s = .refused r := by
  cases hs : s.resting with
  | false => exact ⟨_, hostMove_writeReg_of_running hs v⟩
  | true =>
    have hill : 8 ≤ no ∨ (no = 0 ∨ 5 ≤ no) ∧ 256 ≤ v := by
      simp only [regExists, regHolds, Bool.and_eq_false_iff, Bool.or_eq_false_iff, decide_eq_false_iff_not] at h
      omega
    obtain hno | ⟨rfl | hno, hv⟩ := hill
    · exact ⟨_, hostMove_writeReg_of_no_register hs hno v⟩
    · rw [hostMove_writeCmd_of_resting hs, hostWriteCmd, if_neg hv.not_gt]
      exact ⟨_, rfl⟩
    · rw [hostMove_writeReg_of_resting hs hno, hostWriteMagic]
      cases s.setMagic no (BitVec.ofNat 8 v) with
      | none => exact ⟨_, rfl⟩
      | some t => exact ⟨_, if_neg hv.not_gt⟩

/-- A read that names no register is refused (R25). -/
theorem hostMove_readReg_of_ill_formed {no : Nat} (h : regExists no = false) (s : State) :
    ∃ r, hostMove (.readReg no) s = .refused r := by
  have hno : 8 ≤ no := by
    have := of_decide_eq_false h
    omega
  cases hs : s.resting with
  | false => exact ⟨_, hostMove_readReg_of_running hs (by omega)⟩
  | true => exact ⟨_, hostMove_readReg_of_none hs (regRead_eq_none s hno)⟩

/-! ## The host's buffers -/

/-- The host writes `SRC` and `MIN` only (R32). -/
theorem hostMove_writeBuf_of_ill_formed {sp : Space} (h : hostWrites sp = false) (i : Nat) (v : Byte) (s : State) :
    ∃ r, hostMove (.writeBuf sp i v) s = .refused r := by
  simp only [hostMove, hostWriteBuf]
  split
  · exact ⟨_, rfl⟩
  · split
    · exact ⟨_, rfl⟩
    · cases sp with
      | src => cases h
      | min => cases h
      | dst => exact ⟨_, rfl⟩
      | mout => exact ⟨_, rfl⟩

/-- A buffer write that is taken finds the machine at rest and the index below the capacity, and writes `SRC` or `MIN`
(R32, R40). -/
theorem hostMove_writeBuf_eq_next {sp : Space} {i : Nat} {v : Byte} {s t : State}
    (h : hostMove (.writeBuf sp i v) s = .next t) :
    s.resting = true ∧ capAllows (capacity s.caps sp) (i + 1) = true ∧
      ((sp = .src ∧ t = { s with src := s.src.write i v }) ∨ (sp = .min ∧ t = { s with min := s.min.write i v })) := by
  simp only [hostMove, hostWriteBuf] at h
  split at h
  · cases h
  · rename_i hs
    split at h
    · cases h
    · rename_i hc
      refine ⟨by simpa using hs, by simpa using hc, ?_⟩
      cases sp with
      | src => cases h; exact .inl ⟨rfl, rfl⟩
      | min => cases h; exact .inr ⟨rfl, rfl⟩
      | dst => cases h
      | mout => cases h

/-- A read of a byte that has a value, below the capacity, returns it (R32). -/
theorem hostMove_readBuf_of_some {sp : Space} {i : Nat} {v : Byte} {s : State} (hs : s.resting = true)
    (hc : capAllows (capacity s.caps sp) (i + 1) = true) (hv : (s.buffer sp).read i = some v) :
    hostMove (.readBuf sp i) s = .next { s with hostRead := some v.toNat } := by
  simp [hostMove, hostReadBuf, hs, hc, hv]

/-- A state whose `STATUS.STATE` is `BUSY` is not at rest (R27, R40). -/
theorem resting_eq_false_of_busy {s : State} (h : statusState s.status = 1) : s.resting = false := by
  rw [State.resting, h]
  decide

/-! ## Error texts -/

/-- Byte 5 of an error token, the one after `STEG_`, tells its kind (R80). -/
theorem errKind_eq_of_byte_five {e e' : ErrKind} (h : (errToken e)[5]? = (errToken e')[5]?) : e = e' := by
  revert h
  cases e <;> cases e' <;> decide

/-- An error token has a byte 5 (R80). -/
theorem five_lt_length_errToken (e : ErrKind) : 5 < (errToken e).length := by cases e <;> decide

end Machine

end Sys2Proof
end

section
open Sys2Proof Sys2Proof.Machine

/-- Settles O5: the write of an admitted command's word is taken, and the next step takes the word; a write of any other
command's word asks the command itself. -/
theorem writtenCommandRunsNext : Obligations.WrittenCommandRunsNext := by
  unfold Obligations.WrittenCommandRunsNext
  intro s i hcmd hs
  refine ⟨fun t hexec => ⟨?_, ?_⟩, fun r hexec => ?_⟩
  · exact hostMove_writeCmd_of_admitted (decode_encode i) ((admitted_iff_exists_next i s).2 ⟨t, hexec⟩)
  · have hempty : { s with cmd := 0 } = s := by rw [← hcmd]
    calc step { s with cmd := encode i } = exec i { s with cmd := 0 } := advance_of_pending (decode_encode i)
      _ = .next t := by rw [hempty, hexec]
  · rw [hostMove_writeCmd_of_resting hs, hostWriteCmd_of_refused (decode_encode i) hexec]

/-- Settles O1: the two words are looked up in the opcode table. -/
theorem commandWordsDecode : Obligations.CommandWordsDecode := by
  unfold Obligations.CommandWordsDecode
  decide

/-- Settles O2: each row of the table accepts its own command's word and no other. -/
theorem encodeDecodeAgree : Obligations.EncodeDecodeAgree := by
  unfold Obligations.EncodeDecodeAgree
  exact decode_eq_ok_iff

/-- Settles O4: both levels take the pending word before anything else. -/
theorem stepRunsPendingCommand : Obligations.StepRunsPendingCommand := by
  unfold Obligations.StepRunsPendingCommand
  exact ⟨fun s i hd => ⟨advance_of_pending hd, advance_of_pending hd⟩,
    fun s c hc hd => ⟨advance_of_reserved hc hd, advance_of_reserved hc hd⟩⟩

/-- Settles O6: the reset state is written out in the model; with no command and no move of the host its engine waits. -/
theorem resetValues : Obligations.ResetValues := by
  unfold Obligations.ResetValues
  refine ⟨rfl, rfl, rfl, rfl, rfl, rfl, rfl, rfl, rfl, rfl, rfl, rfl, rfl,
    fun i => ⟨read_nil i, read_nil i, read_nil i, read_nil i, read_nil i⟩, ?_⟩
  exact (advance_of_no_move rfl rfl).trans (engineStep_of_resting_phase (.inl rfl))

/-- Settles O7: reset is the host's move, taken in every phase. -/
theorem resetFromAnyPhase : Obligations.ResetFromAnyPhase := by
  unfold Obligations.ResetFromAnyPhase
  intro s rest hc hi
  exact ⟨advance_of_hostMove hc hi (by decide), advance_of_hostMove hc hi (by decide)⟩

/-- Settles O8: with `N = 0` no frame fits and no whole group can be scanned. -/
theorem afterResetHarmless : Obligations.AfterResetHarmless := by
  unfold Obligations.AfterResetHarmless
  obtain ⟨-, htooBig, -, -, -, hbadMsg, -⟩ := status_values
  intro s
  constructor
  · rw [exec_hide_of_not_fits (hideStartOk_applyReset s) (by simp), State.finish, htooBig]
  · have hscan : scan s.applyReset.pixelReader s.applyReset.n = some ⟨[], false⟩ :=
      scan_eq_bytes_exhausted (Nat.zero_div 8).symm (by simp) (by simp)
    rw [exec_unhide_of_exhausted (startOk_applyReset s) hscan, State.finish, hbadMsg]
    rfl

/-- Settles O42: the register map has these eight entries. -/
theorem hostReadsRegisters : Obligations.HostReadsRegisters := by
  unfold Obligations.HostReadsRegisters
  intro s hs
  have hread {no v : Nat} : s.regRead no = some v → _ := hostMove_readReg_of_some (.inl hs)
  exact ⟨hread rfl, hread rfl, hread rfl, hread rfl, hread rfl, hread rfl, hread rfl, hread rfl,
    fun no hno => hostMove_readReg_of_none hs (regRead_eq_none s hno)⟩

/-- Settles O43: registers 1 to 4 are taken or ignored whatever the value, registers 5 to 7 are the token's bytes. -/
theorem hostWritesRegisters : Obligations.HostWritesRegisters := by
  unfold Obligations.HostWritesRegisters
  intro s v hs
  refine ⟨?status, ?outLen, ?n, ?msgLen, fun b => ⟨?_, ?_, ?_⟩, fun no hno => hostMove_writeReg_of_no_register hs hno v⟩
  case status | outLen | n | msgLen => simp [hostMove, hostWriteReg, hs]
  all_goals exact hostMove_writeReg_of_setMagic hs (by decide) rfl

/-- Settles O44: every access but the read of `STATUS` looks first whether the machine is at rest. -/
theorem busyHostAccess : Obligations.BusyHostAccess := by
  unfold Obligations.BusyHostAccess
  intro s hbusy
  have hs := resting_eq_false_of_busy hbusy
  refine ⟨hostMove_readReg_of_some (.inr rfl) rfl, fun no hno => hostMove_readReg_of_running hs hno,
    fun v => hostMove_writeReg_of_running hs v, fun no v hno => ?_, fun sp i v => ?_, fun sp i => ?_, ?_⟩
  · rw [hostMove_writeReg_of_running hs, if_neg hno]
  · simp [hostMove, hostWriteBuf, hs]
  · simp [hostMove, hostReadBuf, hs]
  · simp [hostMove, hostCopyBack, hs]

/-- Settles O45: a write that is taken is one `Memory.write` in `SRC` or in `MIN`, at an index the host may read. -/
theorem hostBufferWriteThenRead : Obligations.HostBufferWriteThenRead := by
  unfold Obligations.HostBufferWriteThenRead
  intro sp i v s t h
  obtain ⟨hs, hc, ⟨rfl, rfl⟩ | ⟨rfl, rfl⟩⟩ := hostMove_writeBuf_eq_next h
  · refine ⟨hostMove_readBuf_of_some hs hc ((read_write ..).trans (if_pos rfl)), fun sp' j hne => ?_, rfl⟩
    cases sp' with
    | src => exact (read_write ..).trans (if_neg fun hij => hne.elim (· rfl) (· hij.symm))
    | dst | min | mout => rfl
  · refine ⟨hostMove_readBuf_of_some hs hc ((read_write ..).trans (if_pos rfl)), fun sp' j hne => ?_, rfl⟩
    cases sp' with
    | min => exact (read_write ..).trans (if_neg fun hij => hne.elim (· rfl) (· hij.symm))
    | src | dst | mout => rfl

/-- Settles O46: the moves that can be ill formed are register accesses and buffer writes; each of them is refused. -/
theorem illFormedMoveRefused : Obligations.IllFormedMoveRefused := by
  unfold Obligations.IllFormedMoveRefused
  intro m s h
  cases m with
  | reset | readBuf _ _ | copyBack | wait => cases h
  | writeReg no v => exact hostMove_writeReg_of_ill_formed h s
  | readReg no => exact hostMove_readReg_of_ill_formed h s
  | writeBuf sp i v => exact hostMove_writeBuf_of_ill_formed h i v s

/-- Settles O47: the step is the engine's, and in `IDLE` and `DONE` it waits. -/
theorem idleEngineWaits : Obligations.IdleEngineWaits := by
  unfold Obligations.IdleEngineWaits
  intro s hc hi hp
  have hwait := engineStep_of_resting_phase hp
  exact ⟨(advance_of_no_move hc hi).trans hwait, (advance_of_no_move hc hi).trans hwait⟩

/-- Settles O48: byte 5 of the text is byte 5 of its token, whatever the description, and tells the kind. -/
theorem errorTextTokens : Obligations.ErrorTextTokens := by
  unfold Obligations.ErrorTextTokens
  intro e e'
  constructor
  · rintro ⟨rest, h⟩
    have hbyte := congrArg (·[5]?) h
    simp only [errText, List.getElem?_append_left (five_lt_length_errToken _)] at hbyte
    exact errKind_eq_of_byte_five hbyte
  · rintro rfl
    exact List.prefix_append ..

/-- Settles O54: after reset every buffer is empty, the engine is idle and no command is pending. -/
theorem resetMeetsInvariants : Obligations.ResetMeetsInvariants := by
  unfold Obligations.ResetMeetsInvariants
  refine ⟨reset_memoryInv, by decide, ⟨?_, ?_, fun i hi => absurd hi i.not_lt_zero⟩,
    ⟨?_, ?_, ?_, ?_, ?_, engineInv_of_resting_phase (.inl rfl)⟩, pendingInv_of_cmd rfl⟩
  all_goals exact fun c hc => absurd hc List.not_mem_nil

end
